-- ==== Sys2Proof/Word.lean ====
section
/-! DEFINITION. The machine's word and buffer-address types (00_scope.md R8, R12; 30_encoding.md R62). -/

namespace Sys2Proof

/-- One 64-bit word (limb): 00_scope.md R8. -/
abbrev Word := BitVec 64

/-- A buffer address: a 16-bit unsigned word index into OMEM (30_encoding.md R62). -/
abbrev BufAddr := BitVec 16

end Sys2Proof
end

