-- ==== Sys2Proof/Config.lean ====
section
/-! DEFINITION. What one build of the core fixes (00_scope.md R9, R10; 60_exceptions.md R151), and the free value
Draw384 (00_scope.md R16; 40_addsub.md R80). -/

namespace Sys2Proof

/-- `MUL_TIER` (00_scope.md R9): the datapath that implements `MMUL`. -/
inductive MulTier where
  | reference
  | flattened
  | intrinsic
  | machineCode
  deriving DecidableEq, Repr

/-- The build-time parameters. `sharedOmem` is the configuration "Two cores sharing one OMEM" of 60_exceptions.md
R151, which the model refuses. `HOST_MAP` (R11) is read by no rule and has no field. -/
structure Config where
  omemWords  : Nat
  mulTier    : MulTier
  sharedOmem : Bool
  deriving DecidableEq, Repr

/-- The bounds 00_scope.md R10 sets on `OMEM_WORDS`. -/
def Config.wf (c : Config) : Bool :=
  decide (6 ≤ c.omemWords) && decide (c.omemWords ≤ 65536)

/-- The spec's default `OMEM_WORDS` (R10). DESIGN CHOICE (log entries 3, 11): the reference tier, one core. -/
def Config.default : Config :=
  { omemWords := 65536, mulTier := .reference, sharedOmem := false }

/-- The free value of 00_scope.md R16: the `n`-th draw is any value in [0, 2^384), under no law. It has no body, so
nothing can be proved of its value (log entry 4). -/
opaque Config.draw384 : Nat → BitVec 384

end Sys2Proof
end

