-- ==== Sys2Proof/Syntax.lean ====
section
/-! DEFINITION. The five commands (00_scope.md R2; 30_encoding.md R63), one constructor per row of the opcode table. -/

namespace Sys2Proof

/-- A command with its buffer addresses, destination first (30_encoding.md R64, R69). The reserved fields carry
nothing: a word with one of them nonzero is no instruction (R65). -/
inductive Instr where
  | add    (dst srca srcb : BufAddr)
  | sub    (dst srca srcb : BufAddr)
  | mmul   (dst srca srcb : BufAddr)
  | tomont (dst srca : BufAddr)
  | tonorm (dst srca : BufAddr)
  deriving DecidableEq, Repr

end Sys2Proof
end

