-- ==== Sys2Proof/WellFormed.lean ====
section
/-! DEFINITION. When a command may execute in a build with `words` OMEM words: every buffer it names is in range
(20_memory.md R41; 30_encoding.md R66 (d)). The widths of the fields are in the types. -/

namespace Sys2Proof

/-- 20_memory.md R41: a buffer is in range when b + 6 ≤ OMEM_WORDS. -/
def bufInRange (words : Nat) (b : BufAddr) : Bool :=
  decide (b.toNat + 6 ≤ words)

namespace Instr

/-- The buffer the command writes. -/
def dest : Instr → BufAddr
  | .add d _ _ => d
  | .sub d _ _ => d
  | .mmul d _ _ => d
  | .tomont d _ => d
  | .tonorm d _ => d

/-- The buffers the command reads, in the order it reads them (20_memory.md R42). -/
def sources : Instr → List BufAddr
  | .add _ a b => [a, b]
  | .sub _ a b => [a, b]
  | .mmul _ a b => [a, b]
  | .tomont _ a => [a]
  | .tonorm _ a => [a]

/-- Every used buffer is in range: `used` of 30_encoding.md R66. -/
def wellFormed (words : Nat) (i : Instr) : Bool :=
  bufInRange words i.dest && i.sources.all (bufInRange words)

/-- The indices of the words the command reads, in order: six for each source buffer (20_memory.md R41, R42). -/
def sourceWords (i : Instr) : List Nat :=
  i.sources.flatMap fun b => (List.range 6).map (b.toNat + ·)

end Instr

end Sys2Proof
end

