-- ==== Sys2Proof/Decode.lean ====
section
/-! DEFINITION. The command format CMD64 (30_encoding.md R60 to R70): fields, the legality check, the decoder and the
encoder. Both are total; a word that is no command is rejected by the name of its STATUS bit. -/

namespace Sys2Proof

/-! ### Fields (30_encoding.md R61, R62) -/

/-- OPC = cmd[3:0]. -/
def opcField (cmd : Word) : BitVec 4 := cmd.extractLsb' 0 4

/-- RSV = cmd[15:4]. -/
def rsvField (cmd : Word) : BitVec 12 := cmd.extractLsb' 4 12

/-- DST = cmd[31:16]. -/
def dstField (cmd : Word) : BufAddr := cmd.extractLsb' 16 16

/-- SRCA = cmd[47:32]. -/
def srcaField (cmd : Word) : BufAddr := cmd.extractLsb' 32 16

/-- SRCB = cmd[63:48]. -/
def srcbField (cmd : Word) : BufAddr := cmd.extractLsb' 48 16

/-! ### Legality (30_encoding.md R66; the STATUS bits are 10_state.md R31's) -/

/-- STATUS bit 0, ILLOP. -/
def illopBit : Word := 1#64

/-- STATUS bit 1, RSVNZ. -/
def rsvnzBit : Word := 2#64

/-- STATUS bit 2, RANGE. -/
def rangeBit : Word := 4#64

/-- A binary operation: OPC 0x1, 0x2, 0x3 (30_encoding.md R63). -/
def isBinaryOpc (o : BitVec 4) : Bool := o == 1#4 || o == 2#4 || o == 3#4

/-- A unary operation: OPC 0x4, 0x5 (30_encoding.md R63). -/
def isUnaryOpc (o : BitVec 4) : Bool := o == 4#4 || o == 5#4

/-- `check(cmd)` of 30_encoding.md R66: the STATUS bits to raise in a build with `words` OMEM words; the command is
legal exactly when it is 0. -/
def check (words : Nat) (cmd : Word) : Word :=
  let opc := opcField cmd
  if isBinaryOpc opc || isUnaryOpc opc then
    let unary := isUnaryOpc opc
    let rsvBits := if rsvField cmd ≠ 0 ∨ (unary ∧ srcbField cmd ≠ 0) then rsvnzBit else 0
    let used := [dstField cmd, srcaField cmd] ++ (if unary then [] else [srcbField cmd])
    let rangeBits := if used.all (bufInRange words) then 0 else rangeBit
    rsvBits ||| rangeBits
  else
    illopBit

/-! ### Decoder -/

/-- Why a word is no command, named as its STATUS bit (30_encoding.md R65). -/
inductive DecodeError where
  /-- R65 (a): the opcode names no operation. -/
  | illop
  /-- R65 (b), (c): a reserved field is not zero. -/
  | rsvnz
  deriving DecidableEq, Repr

/-- The binary form: RSV must be 0 (30_encoding.md R64, R65 (b)). -/
def decodeBinary (mk : BufAddr → BufAddr → BufAddr → Instr) (cmd : Word) : Except DecodeError Instr :=
  if rsvField cmd = 0 then .ok (mk (dstField cmd) (srcaField cmd) (srcbField cmd)) else .error .rsvnz

/-- The unary form: RSV and SRCB must be 0 (30_encoding.md R64, R65 (b), (c)). -/
def decodeUnary (mk : BufAddr → BufAddr → Instr) (cmd : Word) : Except DecodeError Instr :=
  if rsvField cmd = 0 ∧ srcbField cmd = 0 then .ok (mk (dstField cmd) (srcaField cmd)) else .error .rsvnz

/-- The command a word encodes (30_encoding.md R63, R64), or why it encodes none (R65). Whether its buffers are in
range depends on the build and is `Instr.wellFormed`. -/
def decode (cmd : Word) : Except DecodeError Instr :=
  let opc := opcField cmd
  if opc = 1#4 then decodeBinary .add cmd
  else if opc = 2#4 then decodeBinary .sub cmd
  else if opc = 3#4 then decodeBinary .mmul cmd
  else if opc = 4#4 then decodeUnary .tomont cmd
  else if opc = 5#4 then decodeUnary .tonorm cmd
  else .error .illop

/-- The host's reading of a table row: the row's word is the one 64-bit command word (30_encoding.md R60), the bits
at and above `nbits` zero. A command has no more than 64 bits (log entry 12). -/
def decodeTableWord (nbits w : Nat) : Option Instr :=
  if nbits ≤ 64 then (decode (BitVec.ofNat 64 (w % 2 ^ nbits))).toOption else none

/-! ### Encoder -/

/-- `enc` of 30_encoding.md R70. -/
def enc (opc : BitVec 4) (dst srca srcb : BufAddr) : Word :=
  opc.setWidth 64 ||| (dst.setWidth 64 <<< 16) ||| (srca.setWidth 64 <<< 32) ||| (srcb.setWidth 64 <<< 48)

/-- The command word of an instruction (30_encoding.md R63, R70), with SRCB = 0 in the unary form. -/
def encode : Instr → Word
  | .add d a b => enc 1#4 d a b
  | .sub d a b => enc 2#4 d a b
  | .mmul d a b => enc 3#4 d a b
  | .tomont d a => enc 4#4 d a 0
  | .tonorm d a => enc 5#4 d a 0

/-- The match and mask values of the table of 30_encoding.md R64. -/
def matchMask : Instr → Word × Word
  | .add _ _ _ => (0x0000000000000001#64, 0x000000000000ffff#64)
  | .sub _ _ _ => (0x0000000000000002#64, 0x000000000000ffff#64)
  | .mmul _ _ _ => (0x0000000000000003#64, 0x000000000000ffff#64)
  | .tomont _ _ => (0x0000000000000004#64, 0xffff00000000ffff#64)
  | .tonorm _ _ => (0x0000000000000005#64, 0xffff00000000ffff#64)

end Sys2Proof
end

