-- ==== Sys2Proof/Machine/State.lean ====
section
/-! DEFINITION. The state of the core (10_state.md; 70_reset_and_hazards.md R160), the host's operations (10_state.md
R30), and the reasons a step can stop (60_exceptions.md R154). -/

namespace Sys2Proof.Machine

/-- The host operations of 10_state.md R30. -/
inductive HostOp where
  /-- HostWriteWord(k, v) -/
  | writeWord (k : Nat) (v : Word)
  /-- HostReadWord(k) -/
  | readWord (k : Nat)
  /-- HostIssue(cmd) -/
  | issue (cmd : Word)
  /-- HostReadStatus() -/
  | readStatus
  /-- HostReadErrcmd() -/
  | readErrcmd
  /-- Reset() -/
  | reset
  deriving DecidableEq, Repr

/-- OMEM as (word index, 64-bit word) pairs with strictly rising indices. An index that is not listed holds no value
(10_state.md R23). A cell is a word because OMEM has no bytes (20_memory.md R44; log entry 5). -/
abbrev Memory := List (Nat × Word)

/-- The machine. `omem`, `status` and `errcmd` are the core's architectural state (70_reset_and_hazards.md R160).
`cfg` is the build (never written). `host`, `replies` and `draws` are the model's own (log entries 1, 2, 4). -/
structure State where
  /-- OMEM (10_state.md R22) -/
  omem    : Memory
  /-- STATUS (10_state.md R31), read and written through `statusReg` and `setStatus` only -/
  status  : Word
  /-- ERRCMD (10_state.md R32) -/
  errcmd  : Word
  /-- the build-time parameters (00_scope.md R9, R10) -/
  cfg     : Config
  /-- the host operations still to come, in their total order (20_memory.md R47) -/
  host    : List HostOp
  /-- the words returned to the host so far, oldest first (10_state.md R30) -/
  replies : List Word
  /-- how many free values have been drawn (00_scope.md R16) -/
  draws   : Nat
  deriving DecidableEq, Repr

/-- Why the machine stops with a fault. -/
inductive Fault where
  /-- UninitRead(k) of 10_state.md R23 and 60_exceptions.md R154 (a): a command or HostReadWord reads OMEM word `k`,
  which nothing has written since reset. Safe: the hardware goes on with an unspecified value. -/
  | uninitRead (k : Nat)
  deriving DecidableEq, Repr

/-- Why the model gives a step no meaning. -/
inductive Refusal where
  /-- An instruction whose meaning is not written yet, by its mnemonic. Raised by no arm. Safe. -/
  | notModelled (mnemonic : String)
  /-- HostRange(k) of 10_state.md R30 and 60_exceptions.md R154 (b): HostWriteWord or HostReadWord with
  k ≥ OMEM_WORDS. Safe. -/
  | hostRange (k : Nat)
  /-- SharedOMEM of 60_exceptions.md R151, R154 (c): every step of a build in which two cores share one OMEM. Safe. -/
  | sharedOMEM
  deriving DecidableEq, Repr

/-- Power-on or Reset() of a build (70_reset_and_hazards.md R160), with no host operation to come. -/
def State.powerOn (c : Config) : State :=
  { omem := [], status := 0, errcmd := 0, cfg := c, host := [], replies := [], draws := 0 }

/-- The machine right after reset, in the spec's default build (00_scope.md R10; log entries 3, 4). -/
def State.reset : State := State.powerOn Config.default

end Sys2Proof.Machine
end

