-- ==== Sys2Proof/Machine/Limbs.lean ====
section
/-! DEFINITION. A number as a sequence of 64-bit words, least significant first (00_scope.md R13). -/

namespace Sys2Proof.Machine

/-- `val(w) = Σ w[i]·2^(64·i)` (00_scope.md R13). -/
def val : List Word → Nat
  | [] => 0
  | w :: ws => w.toNat + 2 ^ 64 * val ws

/-- The first `n` words of `v`, word i being `(v div 2^(64·i)) mod 2^64` (00_scope.md R13). -/
def words : Nat → Nat → List Word
  | 0, _ => []
  | n + 1, v => BitVec.ofNat 64 v :: words n (v / 2 ^ 64)

end Sys2Proof.Machine
end

