-- ==== Sys2Proof/Machine/Rom.lean ====
section
/-! DEFINITION. The constant ROM (10_state.md R24 to R29). The ROM is read-only and fixed when the core is built, so
it is these constants and no field of State. Literals are most-significant word first (00_scope.md R14). -/

namespace Sys2Proof.Machine.Rom

/-- `ROM.N`, the modulus (10_state.md R24). -/
def n : Nat :=
  0x1a0111ea397fe69a_4b1ba7b6434bacd7_64774b84f38512bf_6730d2a0f6b0f624_1eabfffeb153ffff_b9feffffffffaaab

/-- `ROM.CORR`, the correction constant 2^384 − N (10_state.md R25). -/
def corr : Nat :=
  0xe5feee15c6801965_b4e45849bcb45328_9b88b47b0c7aed40_98cf2d5f094f09db_e15400014eac0000_4601000000005555

/-- `ROM.R2`, R² mod N (10_state.md R26). -/
def r2 : Nat :=
  0x11988fe592cae3aa_9a793e85b519952d_67eb88a9939d83c0_8de5476c4c95b6d5_0a76e6a609d104f1_f4df1f341c341746

/-- `ROM.ONE`, the integer 1 (10_state.md R27; 90_conflicts.md C4). -/
def one : Nat := 1

/-- `ROM.NPRIME`, N′ = −N⁻¹ mod 2^64 (10_state.md R28). -/
def nprime : Word := 0x89f3fffcfffcfffd#64

/-- R⁻¹ mod N (10_state.md R35 (f)): a derived fact, no ROM constant. -/
def rInv : Nat :=
  0x14fec701e8fb0ce9_ed5e64273c4f538b_1797ab1458a88de9_343ea97914956dc8_7fe11274d898fafb_f4d38259380b4820

end Sys2Proof.Machine.Rom
end

