-- ==== Sys2Proof/Machine/Flags.lean ====
section
/-! DEFINITION. Carry, borrow and the selection mask. The core has no architectural flags (10_state.md R33); these are
the bits internal to one command (R34), computed as the datapaths of 40_addsub.md and 41_montmul.md compute them. -/

namespace Sys2Proof.Machine

/-- One word of a carry chain: t = x + y + c, giving t mod 2^64 and t div 2^64 (40_addsub.md R82). -/
def addCarry (x y : Word) (c : Nat) : Word × Nat :=
  let t := x.toNat + y.toNat + c
  (BitVec.ofNat 64 t, t / 2 ^ 64)

/-- One word of a borrow chain: t = x − y − br, giving t mod 2^64 and the borrow of t < 0 (40_addsub.md R82). -/
def subBorrow (x y : Word) (br : Nat) : Word × Nat :=
  let t : Int := (x.toNat : Int) - y.toNat - br
  (BitVec.ofInt 64 t, if t < 0 then 1 else 0)

/-- One word of a multiply-accumulate chain: t = acc + x·y + c (41_montmul.md R101). -/
def mulAddCarry (acc x y : Word) (c : Nat) : Word × Nat :=
  let t := acc.toNat + x.toNat * y.toNat + c
  (BitVec.ofNat 64 t, t / 2 ^ 64)

/-- The carry chain over two words lists, word 0 first, and its final carry (40_addsub.md R82; 90_conflicts.md C5). -/
def addChain : List Word → List Word → Nat → List Word × Nat
  | x :: xs, y :: ys, c =>
    let p := addCarry x y c
    let q := addChain xs ys p.2
    (p.1 :: q.1, q.2)
  | _, _, c => ([], c)

/-- The borrow chain over two word lists, word 0 first, and its final borrow (40_addsub.md R82, R86). -/
def subChain : List Word → List Word → Nat → List Word × Nat
  | x :: xs, y :: ys, br =>
    let p := subBorrow x y br
    let q := subChain xs ys p.2
    (p.1 :: q.1, q.2)
  | _, _, br => ([], br)

/-- The all-ones or all-zeros mask of a borrow (40_addsub.md R82, R88). -/
def maskOf (br : Nat) : Word := if br = 1 then BitVec.allOnes 64 else 0

/-- Per-word selection: the first word where the mask is all ones, else the second (40_addsub.md R82, R88). -/
def selectWord (mask s d : Word) : Word := (s &&& mask) ||| (d &&& ~~~mask)

/-- The trial subtraction of N and the selection, the same in `ADD` and in `MMUL` (40_addsub.md R82;
41_montmul.md R104). -/
def condSubN (s : List Word) : List Word :=
  let p := subChain s (words 6 Rom.n) 0
  List.zipWith (selectWord (maskOf p.2)) s p.1

end Sys2Proof.Machine
end

