-- ==== Sys2Proof/Machine/Ops.lean ====
section
/-! DEFINITION. The operations over OMEM and over STATUS and ERRCMD: reading and writing words and elements, drawing a
free value, taking the illegal-command exception, and Reset(). -/

namespace Sys2Proof.Machine

/-! ### OMEM (10_state.md R22; 20_memory.md R40 to R42) -/

/-- The word at index `k`, none where nothing has written it since reset (10_state.md R23). -/
def Memory.read : Memory → Nat → Option Word
  | [], _ => none
  | (a, w) :: m, k => if a = k then some w else Memory.read m k

/-- `OMEM[k] <- v` (00_scope.md R16), keeping the indices strictly rising. -/
def Memory.write : Memory → Nat → Word → Memory
  | [], k, v => [(k, v)]
  | (a, w) :: m, k, v =>
    if k < a then (k, v) :: (a, w) :: m
    else if k = a then (k, v) :: m
    else (a, w) :: Memory.write m k v

/-- Every index of `m` lies in `lo ≤ k < hi`, and the indices strictly rise. -/
def Memory.risingFrom (lo hi : Nat) : Memory → Bool
  | [] => true
  | (a, _) :: m => decide (lo ≤ a) && decide (a < hi) && Memory.risingFrom (a + 1) hi m

/-- The canonical form of an OMEM of `n` words. -/
def Memory.wf (n : Nat) (m : Memory) : Bool := Memory.risingFrom 0 n m

/-- The `n` words from index `a` up, or the first of them that holds no value. -/
def Memory.readWords (m : Memory) : Nat → Nat → Except Nat (List Word)
  | _, 0 => .ok []
  | a, n + 1 =>
    match m.read a with
    | none => .error a
    | some w => (Memory.readWords m (a + 1) n).map (w :: ·)

/-- Writes the words at indices `a`, `a + 1`, … in order. -/
def Memory.writeWords : Memory → Nat → List Word → Memory
  | m, _, [] => m
  | m, a, w :: ws => Memory.writeWords (m.write a w) (a + 1) ws

/-- `MemRead(addr, n)` (00_scope.md R16), or the fault UninitRead (10_state.md R23). -/
def State.memRead (s : State) (addr n : Nat) : Except Fault Nat :=
  match s.omem.readWords addr n with
  | .ok ws => .ok (val ws)
  | .error k => .error (.uninitRead k)

/-- `MemWrite(addr, n, v)` (00_scope.md R16). -/
def State.memWrite (s : State) (addr n v : Nat) : State :=
  { s with omem := s.omem.writeWords addr (words n v) }

/-- `Draw384()` (00_scope.md R16): the next free value. -/
def State.drawValue (s : State) : Nat := (Config.draw384 s.draws).toNat

/-- The state after one draw. -/
def State.afterDraw (s : State) : State := { s with draws := s.draws + 1 }

/-! ### STATUS and ERRCMD (10_state.md R31, R32) -/

/-- STATUS bits 2:0; bits 63:3 are hard-wired 0 (10_state.md R31; log entry 9). -/
def statusMask : Word := 7#64

/-- STATUS as it reads. -/
def State.statusReg (s : State) : Word := s.status &&& statusMask

/-- STATUS takes a value; the hard-wired bits stay 0. -/
def State.setStatus (s : State) (v : Word) : State := { s with status := v &&& statusMask }

/-- `raise CmdError(bits)` for the command word `cmd`: taking the core's one exception (00_scope.md R16;
60_exceptions.md R143, R145). ERRCMD captures the word only when STATUS was 0. There is no vector, no handler and no
return (R144). -/
def State.raiseCmdError (s : State) (bits cmd : Word) : State :=
  let s' := if s.statusReg = 0 then { s with errcmd := cmd } else s
  s'.setStatus (s.statusReg ||| bits)

/-- `Reset()` (70_reset_and_hazards.md R160): STATUS and ERRCMD are 0 and no OMEM word holds a value; nothing else of
the core changes. It is the only way back from a recorded error (60_exceptions.md R144; log entry 8). -/
def State.coreReset (s : State) : State := { s with omem := [], status := 0, errcmd := 0 }

end Sys2Proof.Machine
end

