-- ==== Sys2Proof/Machine/Operands.lean ====
section
/-! DEFINITION. The operand forms: a buffer named by a 16-bit address (30_encoding.md R62), latched whole before any
write (20_memory.md R42), and the two command forms, binary and unary (30_encoding.md R64), around an operation on
values. -/

namespace Sys2Proof.Machine

/-- `LA <- MemRead(SRCA, 6)` (20_memory.md R41, R42): the value of the element at a buffer address. -/
def State.latch (s : State) (b : BufAddr) : Except Fault Nat := s.memRead b.toNat 6

/-- An element is reduced when its value is below N (00_scope.md R13). -/
def reduced (v : Nat) : Bool := decide (v < Rom.n)

/-- The write phase of 20_memory.md R42: DST takes the result where every source is reduced, and a free value where
one is not (40_addsub.md R80). -/
def State.writeResult (s : State) (dst : BufAddr) (sourcesReduced : Bool) (r : Nat) : State :=
  if sourcesReduced then s.memWrite dst.toNat 6 r
  else s.afterDraw.memWrite dst.toNat 6 s.drawValue

/-- A binary command with the command word `cmd`: legality (30_encoding.md R66), then the phases of 20_memory.md R42.
An illegal command reads and writes no OMEM word (R43). -/
def runBinary (cmd : Word) (dst srca srcb : BufAddr) (op : Nat → Nat → Nat) (s : State) :
    Host.Outcome State Fault Refusal :=
  if check s.cfg.omemWords cmd = 0 then
    match s.latch srca with
    | .error f => .fault f
    | .ok a =>
      match s.latch srcb with
      | .error f => .fault f
      | .ok b => .next (s.writeResult dst (reduced a && reduced b) (op a b))
  else .next (s.raiseCmdError (check s.cfg.omemWords cmd) cmd)

/-- A unary command with the command word `cmd`, as `runBinary`; its second operand is the ROM's, inside `op`. -/
def runUnary (cmd : Word) (dst srca : BufAddr) (op : Nat → Nat) (s : State) :
    Host.Outcome State Fault Refusal :=
  if check s.cfg.omemWords cmd = 0 then
    match s.latch srca with
    | .error f => .fault f
    | .ok a => .next (s.writeResult dst (reduced a) (op a))
  else .next (s.raiseCmdError (check s.cfg.omemWords cmd) cmd)

end Sys2Proof.Machine
end

