-- ==== Sys2Proof/Machine/AddSub.lean ====
section
/-! DEFINITION. `ADD` and `SUB` (40_addsub.md). -/

namespace Sys2Proof.Machine

/-- The `ADD` datapath (40_addsub.md R82): the carry chain, the trial subtraction of N and the selection by its final
borrow. The sum's carry_out is recorded and not used. -/
def addDatapath (a b : Nat) : Nat :=
  let sum := addChain (words 6 a) (words 6 b) 0
  val (condSubN sum.1)

/-- The `SUB` datapath (40_addsub.md R86; 90_conflicts.md C2): the borrow chain, then N AND mask added back; the final
carry is discarded. -/
def subDatapath (a b : Nat) : Nat :=
  let diff := subChain (words 6 a) (words 6 b) 0
  let fix := (words 6 Rom.n).map (· &&& maskOf diff.2)
  val (addChain diff.1 fix 0).1

/-- The other fix-up an implementation may use (40_addsub.md R86): CORR AND mask subtracted, with a borrow chain. -/
def subDatapathByCorr (a b : Nat) : Nat :=
  let diff := subChain (words 6 a) (words 6 b) 0
  let fix := (words 6 Rom.corr).map (· &&& maskOf diff.2)
  val (subChain diff.1 fix 0).1

/-- `ADD dst, srca, srcb` (40_addsub.md R81). -/
def execAdd (dst srca srcb : BufAddr) (s : State) : Host.Outcome State Fault Refusal :=
  runBinary (encode (.add dst srca srcb)) dst srca srcb addDatapath s

/-- `SUB dst, srca, srcb` (40_addsub.md R85): SRCA is the minuend. -/
def execSub (dst srca srcb : BufAddr) (s : State) : Host.Outcome State Fault Refusal :=
  runBinary (encode (.sub dst srca srcb)) dst srca srcb subDatapath s

end Sys2Proof.Machine
end

