-- ==== Sys2Proof/Machine/MontMul.lean ====
section
/-! DEFINITION. `MMUL`: Montgomery multiplication by CIOS (41_montmul.md) in the four tiers of R106 to R109. The tier
is the build's; every tier gives the same value for reduced operands, the only ones it is applied to. -/

namespace Sys2Proof.Machine

/-! ### The reference tier (41_montmul.md R101, R104) -/

/-- One multiply-accumulate row, `acc += xs·y`, with the carry through every word of `xs` and into the one overflow
word after them (41_montmul.md R101 steps (1) and (3)). -/
def mulAddRow : List Word → List Word → Word → Nat → List Word
  | [], _, _, _ => []
  | t :: acc, [], _, c => BitVec.ofNat 64 (t.toNat + c) :: acc
  | t :: acc, x :: xs, y, c =>
    let p := mulAddCarry t x y c
    p.1 :: mulAddRow acc xs y p.2

/-- The row at offset `i` of the accumulator. -/
def rowAt (i : Nat) (acc xs : List Word) (y : Word) : List Word :=
  acc.take i ++ mulAddRow (acc.drop i) xs y 0

/-- The quotient digit m = (ACC[i] · N′) mod 2^64 (41_montmul.md R101 step (2)). -/
def quotientDigit (i : Nat) (acc : List Word) : Word := acc.getD i 0 * Rom.nprime

/-- Round `i` of 41_montmul.md R101 on the 12-word accumulator. -/
def ciosRound (la : List Word) (i : Nat) (acc : List Word) (b : Word) : List Word :=
  let acc1 := rowAt i acc la b
  rowAt i acc1 (words 6 Rom.n) (quotientDigit i acc1)

/-- The rounds from `i` up, one for each word of LB that is left (41_montmul.md R101). -/
def ciosRounds (la : List Word) : Nat → List Word → List Word → List Word
  | _, acc, [] => acc
  | i, acc, b :: bs => ciosRounds la (i + 1) (ciosRound la i acc b) bs

/-- The accumulator after the rounds of the words `lb`, from twelve zero words (41_montmul.md R101). -/
def ciosAcc (la lb : List Word) : List Word := ciosRounds la 0 (List.replicate 12 0) lb

/-- The reference tier: six rounds, the top six words, one conditional subtraction (41_montmul.md R101, R104). -/
def ciosReference (a b : Nat) : Nat :=
  val (condSubN ((ciosAcc (words 6 a) (words 6 b)).drop 6))

/-! ### The rounds on values (41_montmul.md R103) -/

/-- m_i of 41_montmul.md R103. -/
def valueDigit (u : Nat) : Nat := (u % 2 ^ 64) * Rom.nprime.toNat % 2 ^ 64

/-- T_i from T_{i−1} (41_montmul.md R103). -/
def valueRound (a t : Nat) (b : Word) : Nat :=
  let u := t + a * b.toNat
  (u + valueDigit u * Rom.n) / 2 ^ 64

/-- T after the rounds of the words `lb`, from T_{−1} = 0 (41_montmul.md R103). -/
def valueRounds (a : Nat) (lb : List Word) : Nat := lb.foldl (valueRound a) 0

/-! ### The flattened tier (41_montmul.md R107) -/

/-- The seven accumulator words one round works on, low word first. -/
structure Window where
  w0 : Word
  w1 : Word
  w2 : Word
  w3 : Word
  w4 : Word
  w5 : Word
  w6 : Word
  deriving DecidableEq, Repr

/-- acc + x·y + c in 128-bit arithmetic, which cannot overflow (41_montmul.md R101). -/
def wideMulAdd (acc x y c : Word) : BitVec 128 :=
  acc.setWidth 128 + x.setWidth 128 * y.setWidth 128 + c.setWidth 128

/-- The low word of a 128-bit value. -/
def loWord (t : BitVec 128) : Word := t.extractLsb' 0 64

/-- The high word of a 128-bit value. -/
def hiWord (t : BitVec 128) : Word := t.extractLsb' 64 64

/-- A row unrolled into named intermediate values (41_montmul.md R107). -/
def flatRow (t : Window) (x0 x1 x2 x3 x4 x5 y : Word) : Window :=
  let p0 := wideMulAdd t.w0 x0 y 0
  let p1 := wideMulAdd t.w1 x1 y (hiWord p0)
  let p2 := wideMulAdd t.w2 x2 y (hiWord p1)
  let p3 := wideMulAdd t.w3 x3 y (hiWord p2)
  let p4 := wideMulAdd t.w4 x4 y (hiWord p3)
  let p5 := wideMulAdd t.w5 x5 y (hiWord p4)
  { w0 := loWord p0, w1 := loWord p1, w2 := loWord p2, w3 := loWord p3, w4 := loWord p4, w5 := loWord p5,
    w6 := t.w6 + hiWord p5 }

/-- The window moved up one word: the low word, now 0, is dropped and a zero word comes in (41_montmul.md R101). -/
def Window.shift (t : Window) : Window :=
  { w0 := t.w1, w1 := t.w2, w2 := t.w3, w3 := t.w4, w4 := t.w5, w5 := t.w6, w6 := 0 }

/-- One round, its two rows and the quotient digit between them, the words of N written out (10_state.md R24). -/
def flatRound (x0 x1 x2 x3 x4 x5 : Word) (t : Window) (y : Word) : Window :=
  let u := flatRow t x0 x1 x2 x3 x4 x5 y
  let m := u.w0 * Rom.nprime
  (flatRow u 0xb9feffffffffaaab#64 0x1eabfffeb153ffff#64 0x6730d2a0f6b0f624#64 0x64774b84f38512bf#64
    0x4b1ba7b6434bacd7#64 0x1a0111ea397fe69a#64 m).shift

/-- Word `i` of a value. -/
def wordAt (v i : Nat) : Word := BitVec.ofNat 64 (v / 2 ^ (64 * i))

/-- The six rounds written out, from a zero window (41_montmul.md R107). -/
def flatRounds (round : Window → Word → Window) (b : Nat) : Window :=
  let t0 := round ⟨0, 0, 0, 0, 0, 0, 0⟩ (wordAt b 0)
  let t1 := round t0 (wordAt b 1)
  let t2 := round t1 (wordAt b 2)
  let t3 := round t2 (wordAt b 3)
  let t4 := round t3 (wordAt b 4)
  round t4 (wordAt b 5)

/-- R104's subtraction on a window whose overflow word is 0. -/
def Window.finish (t : Window) : Nat := val (condSubN [t.w0, t.w1, t.w2, t.w3, t.w4, t.w5])

/-- The flattened tier (41_montmul.md R107, R104). -/
def ciosFlattened (a b : Nat) : Nat :=
  (flatRounds (flatRound (wordAt a 0) (wordAt a 1) (wordAt a 2) (wordAt a 3) (wordAt a 4) (wordAt a 5)) b).finish

/-! ### The intrinsic tier (41_montmul.md R108) -/

/-- Add with carry-in and carry-out, one bit each. -/
def adcPrim (x y : Word) (c : Bool) : Word × Bool :=
  (x + y + (BitVec.ofBool c).setWidth 64, decide (2 ^ 64 ≤ x.toNat + y.toNat + c.toNat))

/-- Subtract with borrow-in and borrow-out, one bit each. -/
def sbbPrim (x y : Word) (c : Bool) : Word × Bool :=
  (x - y - (BitVec.ofBool c).setWidth 64, decide (x.toNat < y.toNat + c.toNat))

/-- 64×64→128 multiply: high and low word. -/
def mulPrim (x y : Word) : Word × Word :=
  (BitVec.ofNat 64 (x.toNat * y.toNat / 2 ^ 64), BitVec.ofNat 64 (x.toNat * y.toNat))

/-- acc + x·y + c from the primitives, with the carry-out word (41_montmul.md R108). -/
def intrinsicMulAdd (acc x y c : Word) : Word × Word :=
  let p := mulPrim x y
  let l1 := adcPrim p.2 acc false
  let h1 := adcPrim p.1 0 l1.2
  let l2 := adcPrim l1.1 c false
  let h2 := adcPrim h1.1 0 l2.2
  (l2.1, h2.1)

/-- A row over the primitives; the overflow word takes the last carry. -/
def intrinsicRow : List Word → List Word → Word → Word → List Word
  | [], _, _, _ => []
  | t :: acc, [], _, c => (adcPrim t c false).1 :: acc
  | t :: acc, x :: xs, y, c =>
    let p := intrinsicMulAdd t x y c
    p.1 :: intrinsicRow acc xs y p.2

/-- The accumulator window after the rounds of the words left, each round dropping its low word. -/
def intrinsicRounds (la : List Word) : List Word → List Word → List Word
  | acc, [] => acc
  | acc, b :: bs =>
    let acc1 := intrinsicRow acc la b 0
    let acc2 := intrinsicRow acc1 (words 6 Rom.n) (acc1.headD 0 * Rom.nprime) 0
    intrinsicRounds la acc2.tail bs

/-- A borrow chain over the primitives. -/
def intrinsicSubChain : List Word → List Word → Bool → List Word × Bool
  | x :: xs, y :: ys, c =>
    let p := sbbPrim x y c
    let q := intrinsicSubChain xs ys p.2
    (p.1 :: q.1, q.2)
  | _, _, c => ([], c)

/-- The final conditional subtraction over the primitives (41_montmul.md R104). -/
def intrinsicCondSubN (s : List Word) : List Word :=
  let p := intrinsicSubChain s (words 6 Rom.n) false
  List.zipWith (selectWord (if p.2 then BitVec.allOnes 64 else 0)) s p.1

/-- The intrinsic tier: "same algorithm and word ordering" over the primitives (41_montmul.md R108). -/
def ciosIntrinsic (a b : Nat) : Nat :=
  val (intrinsicCondSubN (intrinsicRounds (words 6 a) (List.replicate 12 0) (words 6 b)))

/-! ### The machine-code tier and the tier switch -/

/-- The machine-code tier, known only by its contract (41_montmul.md R100, R109): a·b·R⁻¹ mod N (log entry 10). -/
def montMachineCode (a b : Nat) : Nat := a * b * Rom.rInv % Rom.n

/-- The Montgomery product by the datapath of the build's tier (41_montmul.md R106; 00_scope.md R9). -/
def montMul (tier : MulTier) (a b : Nat) : Nat :=
  match tier with
  | .reference => ciosReference a b
  | .flattened => ciosFlattened a b
  | .intrinsic => ciosIntrinsic a b
  | .machineCode => montMachineCode a b

/-- `MMUL dst, srca, srcb` (41_montmul.md R100). -/
def execMmul (dst srca srcb : BufAddr) (s : State) : Host.Outcome State Fault Refusal :=
  runBinary (encode (.mmul dst srca srcb)) dst srca srcb (montMul s.cfg.mulTier) s

end Sys2Proof.Machine
end

