-- ==== Sys2Proof/Machine/Conversion.lean ====
section
/-! DEFINITION. `TOMONT` and `TONORM` (42_conversion.md): Montgomery multiplication by a ROM constant. -/

namespace Sys2Proof.Machine

/-- `TOMONT dst, srca` (42_conversion.md R120): LB is words(ROM.R2). -/
def execTomont (dst srca : BufAddr) (s : State) : Host.Outcome State Fault Refusal :=
  runUnary (encode (.tomont dst srca)) dst srca (montMul s.cfg.mulTier · Rom.r2) s

/-- `TONORM dst, srca` (42_conversion.md R122): LB is words(ROM.ONE). -/
def execTonorm (dst srca : BufAddr) (s : State) : Host.Outcome State Fault Refusal :=
  runUnary (encode (.tonorm dst srca)) dst srca (montMul s.cfg.mulTier · Rom.one) s

end Sys2Proof.Machine
end

