-- ==== Sys2Proof/Machine/Dispatch.lean ====
section
/-! DEFINITION. One arm per command (30_encoding.md R63). -/

namespace Sys2Proof.Machine

def exec (i : Instr) (s : State) : Host.Outcome State Fault Refusal :=
  match i with
  | .add dst srca srcb => Sys2Proof.Machine.execAdd dst srca srcb s
  | .sub dst srca srcb => Sys2Proof.Machine.execSub dst srca srcb s
  | .mmul dst srca srcb => Sys2Proof.Machine.execMmul dst srca srcb s
  | .tomont dst srca => Sys2Proof.Machine.execTomont dst srca s
  | .tonorm dst srca => Sys2Proof.Machine.execTonorm dst srca s

end Sys2Proof.Machine
end

