-- ==== Sys2Proof/Machine/HostPort.lean ====
section
/-! DEFINITION. The host's operations on the core (10_state.md R30), each atomic. -/

namespace Sys2Proof.Machine

/-- A value is returned to the host. -/
def State.reply (s : State) (v : Word) : State := { s with replies := s.replies ++ [v] }

/-- HostWriteWord(k, v): OMEM[k] <- v; k ≥ OMEM_WORDS is refused (10_state.md R30). -/
def hostWriteWord (k : Nat) (v : Word) (s : State) : Host.Outcome State Fault Refusal :=
  if k < s.cfg.omemWords then .next { s with omem := s.omem.write k v } else .refused (.hostRange k)

/-- HostReadWord(k): returns OMEM[k]; a word that holds no value is a fault (10_state.md R23, R30). -/
def hostReadWord (k : Nat) (s : State) : Host.Outcome State Fault Refusal :=
  if k < s.cfg.omemWords then
    match s.omem.read k with
    | some v => .next (s.reply v)
    | none => .fault (.uninitRead k)
  else .refused (.hostRange k)

/-- HostIssue(cmd): a word that decodes runs; any other is the illegal-command exception (30_encoding.md R66, R67;
60_exceptions.md R143). -/
def hostIssue (cmd : Word) (s : State) : Host.Outcome State Fault Refusal :=
  match decode cmd with
  | .ok i => exec i s
  | .error _ => .next (s.raiseCmdError (check s.cfg.omemWords cmd) cmd)

/-- HostReadStatus(): returns STATUS (10_state.md R31). -/
def hostReadStatus (s : State) : Host.Outcome State Fault Refusal := .next (s.reply s.statusReg)

/-- HostReadErrcmd(): returns ERRCMD (10_state.md R32). -/
def hostReadErrcmd (s : State) : Host.Outcome State Fault Refusal := .next (s.reply s.errcmd)

/-- Reset() (70_reset_and_hazards.md R160). -/
def hostReset (s : State) : Host.Outcome State Fault Refusal := .next s.coreReset

/-- One host operation, to completion (10_state.md R30; 20_memory.md R47). -/
def perform (op : HostOp) (s : State) : Host.Outcome State Fault Refusal :=
  match op with
  | .writeWord k v => hostWriteWord k v s
  | .readWord k => hostReadWord k s
  | .issue cmd => hostIssue cmd s
  | .readStatus => hostReadStatus s
  | .readErrcmd => hostReadErrcmd s
  | .reset => hostReset s

/-- The host's next operation is `HostIssue(cmd)`. -/
def State.issueNext (s : State) (cmd : Word) : State := { s with host := .issue cmd :: s.host }

/-- The host issues the commands of a program, in order, before anything else it does (30_encoding.md R60). -/
def State.withProgram (s : State) (cmds : List Word) : State :=
  { s with host := cmds.map .issue ++ s.host }

end Sys2Proof.Machine
end

