-- ==== Sys2Proof/Machine/Step.lean ====
section
/-! DEFINITION. One step of the machine: the host's next operation (20_memory.md R47), or idling. -/

namespace Sys2Proof.Machine

/-- One step. A shared OMEM is refused (60_exceptions.md R151, R154 (c)). With no host operation to come the core is
idle and holds its state (60_exceptions.md R153; log entry 7). -/
def step (s : State) : Host.Outcome State Fault Refusal :=
  if s.cfg.sharedOmem then .refused .sharedOMEM
  else
    match s.host with
    | [] => .next s
    | op :: rest => perform op { s with host := rest }

/-- The state whose very next step issues the table word `w`: commands come from the host, not from memory
(10_state.md R21; 20_memory.md R50; log entry 6). -/
def State.withFetchWord (s : State) (nbits w : Nat) : State :=
  s.issueNext (BitVec.ofNat 64 (w % 2 ^ nbits))

end Sys2Proof.Machine
end

