-- ==== Sys2Proof/Machine/Assembler.lean ====
section
/-! DEFINITION. The assembly language of 30_encoding.md R69: from a line of text to a command word, and the canonical
text of a command. Text is a list of characters. What R69 leaves open (spacing, the digits' case) is log entry 13. -/

namespace Sys2Proof.Machine.Asm

/-- Why a line is refused. -/
inductive AsmError where
  /-- the first word is no mnemonic and not `.word` -/
  | unknownMnemonic
  /-- the number of operands is not the mnemonic's -/
  | operandCount
  /-- an operand is no number, or too large for its field -/
  | badNumber
  deriving DecidableEq, Repr

/-- A space or a tab. -/
def isBlank (c : Char) : Bool := c == ' ' || c == '\t'

/-- The text without the blanks at its two ends. -/
def trim (l : List Char) : List Char := ((l.dropWhile isBlank).reverse.dropWhile isBlank).reverse

/-- `;` starts a comment (30_encoding.md R69). -/
def stripComment (l : List Char) : List Char := l.takeWhile (· != ';')

/-- Mnemonics are case-insensitive (30_encoding.md R69). -/
def upper (l : List Char) : List Char := l.map Char.toUpper

/-- The value of a digit in base `base`, 10 or 16. -/
def digitVal (base : Nat) (c : Char) : Option Nat :=
  let n := c.toNat
  let v :=
    if 48 ≤ n ∧ n ≤ 57 then n - 48
    else if 97 ≤ n ∧ n ≤ 102 then n - 87
    else if 65 ≤ n ∧ n ≤ 70 then n - 55
    else 16
  if v < base then some v else none

/-- The value of a run of digits after the digits already read. -/
def digitsVal (base : Nat) : Nat → List Char → Option Nat
  | acc, [] => some acc
  | acc, c :: cs =>
    match digitVal base c with
    | some d => digitsVal base (acc * base + d) cs
    | none => none

/-- A number in decimal or as `0x` hex (30_encoding.md R69); at least one digit. -/
def parseNat : List Char → Option Nat
  | [] => none
  | '0' :: 'x' :: c :: cs => digitsVal 16 0 (c :: cs)
  | l => digitsVal 10 0 l

/-- The operands of a line: the pieces between commas, without their blanks; none where there is no text. -/
def splitComma : List Char → List (List Char)
  | [] => [[]]
  | c :: cs =>
    if c = ',' then [] :: splitComma cs
    else
      match splitComma cs with
      | [] => [[c]]
      | w :: ws => (c :: w) :: ws

/-- The operand texts after the mnemonic. -/
def operandTexts (l : List Char) : List (List Char) :=
  if trim l = [] then [] else (splitComma l).map trim

/-- A number below `bound`. -/
def parseBelow (bound : Nat) (l : List Char) : Option Nat :=
  match parseNat l with
  | some n => if n < bound then some n else none
  | none => none

/-- A word index, 0 to 65535 (30_encoding.md R69). -/
def parseAddr (l : List Char) : Option BufAddr := (parseBelow (2 ^ 16) l).map (BitVec.ofNat 16)

/-- Three addresses, destination first. -/
def asmBinary (mk : BufAddr → BufAddr → BufAddr → Instr) : List (List Char) → Except AsmError Word
  | [d, a, b] =>
    match parseAddr d, parseAddr a, parseAddr b with
    | some d, some a, some b => .ok (encode (mk d a b))
    | _, _, _ => .error .badNumber
  | _ => .error .operandCount

/-- Two addresses, destination first. -/
def asmUnary (mk : BufAddr → BufAddr → Instr) : List (List Char) → Except AsmError Word
  | [d, a] =>
    match parseAddr d, parseAddr a with
    | some d, some a => .ok (encode (mk d a))
    | _, _ => .error .badNumber
  | _ => .error .operandCount

/-- `.word <64-bit value>`: a raw command word, legal or not. -/
def asmWord : List (List Char) → Except AsmError Word
  | [v] =>
    match parseBelow (2 ^ 64) v with
    | some n => .ok (BitVec.ofNat 64 n)
    | none => .error .badNumber
  | _ => .error .operandCount

/-- The word a mnemonic and its operand texts stand for. -/
def asmCommand (mnemonic : List Char) (ops : List (List Char)) : Except AsmError Word :=
  let m := upper mnemonic
  if m = ['A', 'D', 'D'] then asmBinary .add ops
  else if m = ['S', 'U', 'B'] then asmBinary .sub ops
  else if m = ['M', 'M', 'U', 'L'] then asmBinary .mmul ops
  else if m = ['T', 'O', 'M', 'O', 'N', 'T'] then asmUnary .tomont ops
  else if m = ['T', 'O', 'N', 'O', 'R', 'M'] then asmUnary .tonorm ops
  else if m = ['.', 'W', 'O', 'R', 'D'] then asmWord ops
  else .error .unknownMnemonic

/-- One line: at most one command; a line with nothing before its comment gives none (30_encoding.md R69). -/
def assembleLine (l : List Char) : Except AsmError (Option Word) :=
  let t := trim (stripComment l)
  if t = [] then .ok none
  else (asmCommand (t.takeWhile (! isBlank ·)) (operandTexts (t.dropWhile (! isBlank ·)))).map some

/-- A program: the command words of its lines, in order (30_encoding.md R60, R69). -/
def assemble : List (List Char) → Except AsmError (List Word)
  | [] => .ok []
  | l :: ls =>
    match assembleLine l, assemble ls with
    | .ok (some w), .ok ws => .ok (w :: ws)
    | .ok none, .ok ws => .ok ws
    | .error e, _ => .error e
    | _, .error e => .error e

/-! ### Canonical text -/

/-- A decimal digit's character. -/
def digitChar (d : Nat) : Char := Char.ofNat (48 + d)

/-- The `n` low decimal digits of `v`, most significant first, before `acc`; leading zeros are left out. -/
def decimal : Nat → Nat → List Char → List Char
  | 0, _, acc => acc
  | n + 1, v, acc => if v < 10 then digitChar v :: acc else decimal n (v / 10) (digitChar (v % 10) :: acc)

/-- An address in decimal: at most five digits. -/
def addrText (b : BufAddr) : List Char := decimal 5 b.toNat []

/-- The canonical spelling of a command, mnemonic in upper case (30_encoding.md R69). -/
def text : Instr → List Char
  | .add d a b => ['A', 'D', 'D', ' '] ++ addrText d ++ [',', ' '] ++ addrText a ++ [',', ' '] ++ addrText b
  | .sub d a b => ['S', 'U', 'B', ' '] ++ addrText d ++ [',', ' '] ++ addrText a ++ [',', ' '] ++ addrText b
  | .mmul d a b => ['M', 'M', 'U', 'L', ' '] ++ addrText d ++ [',', ' '] ++ addrText a ++ [',', ' '] ++ addrText b
  | .tomont d a => ['T', 'O', 'M', 'O', 'N', 'T', ' '] ++ addrText d ++ [',', ' '] ++ addrText a
  | .tonorm d a => ['T', 'O', 'N', 'O', 'R', 'M', ' '] ++ addrText d ++ [',', ' '] ++ addrText a

/-- A raw word in decimal: at most twenty digits (30_encoding.md R69, `.word`). -/
def wordText (w : Word) : List Char := ['.', 'w', 'o', 'r', 'd', ' '] ++ decimal 20 w.toNat []

end Sys2Proof.Machine.Asm
end

