-- ==== Sys2Proof/Safety.lean ====
section
/-! DEFINITION. What claims are stated in: the element a buffer holds, the invariant of every state, and the safe run
(60_exceptions.md R154). -/

namespace Sys2Proof.Machine

/-- The element at buffer address `b` has value `x` (00_scope.md R13; 20_memory.md R41): word i, at OMEM[b + i], is
(x div 2^(64·i)) mod 2^64. -/
abbrev State.Holds (s : State) (b : BufAddr) (x : Nat) : Prop :=
  x < 2 ^ 384 ∧ ∀ i < 6, s.omem.read (b.toNat + i) = some (BitVec.ofNat 64 (x / 2 ^ (64 * i)))

/-- `k` is one of the six words of the element at `b` (20_memory.md R41). -/
abbrev InBuf (b : BufAddr) (k : Nat) : Prop := b.toNat ≤ k ∧ k < b.toNat + 6

/-- The command word a host operation issues, if it issues one (10_state.md R30). -/
def HostOp.command : HostOp → Option Word
  | .issue cmd => some cmd
  | .writeWord _ _ => none
  | .readWord _ => none
  | .readStatus => none
  | .readErrcmd => none
  | .reset => none

/-- Every OMEM word outside the element at `b` reads in `t` as it reads in `s`. -/
def SameOutside (b : BufAddr) (s t : State) : Prop :=
  ∀ k, ¬ InBuf b k → t.omem.read k = s.omem.read k

/-- STATUS, ERRCMD, the build, the host's operations and its replies are in `t` what they are in `s`. -/
structure SameControl (s t : State) : Prop where
  statusReg : t.statusReg = s.statusReg
  errcmd    : t.errcmd = s.errcmd
  cfg       : t.cfg = s.cfg
  host      : t.host = s.host
  replies   : t.replies = s.replies

/-- The invariant. The build is one the spec allows (00_scope.md R10); OMEM is in canonical form within its bounds
(10_state.md R22); the hard-wired STATUS bits are 0 (R31); ERRCMD is 0 while STATUS is, and otherwise a word that is
illegal in this build and whose causes are all in STATUS (R32; 60_exceptions.md R143). -/
abbrev State.Inv (s : State) : Prop :=
  s.cfg.wf = true ∧ Memory.wf s.cfg.omemWords s.omem = true ∧ s.status &&& ~~~statusMask = 0 ∧
    (s.status = 0 → s.errcmd = 0) ∧
    (s.status ≠ 0 → check s.cfg.omemWords s.errcmd ≠ 0 ∧
      s.status &&& check s.cfg.omemWords s.errcmd = check s.cfg.omemWords s.errcmd)

/-- A safe run of `n` steps ending in `t`: no model fault, no refusal, and every command executed
(60_exceptions.md R144, R154). -/
def SafeRun (n : Nat) (s t : State) : Prop :=
  Sys2Proof.core.run n s = .next t ∧ t.statusReg = 0

end Sys2Proof.Machine
end

