-- ==== Sys2Proof/Certificates/Slice0/Obligations.lean ====
section
/-! DEFINITION. The statements for the provers, in the order of the spec's files. Each docstring names the rule it
formalises or rests on. -/

open Sys2Proof Sys2Proof.Machine

/-! ### Encoding (30_encoding.md) -/

/-- Decoding the word of a command gives the command back, for every command (30_encoding.md R61, R63, R70). -/
def Obligations.DecodeOfEncode : Prop :=
  ∀ i : Instr, decode (encode i) = .ok i

/-- A word that decodes is the word of the command it decodes to: no bit is dropped (30_encoding.md R61, R65). -/
def Obligations.EncodeOfDecode : Prop :=
  ∀ (w : Word) (i : Instr), decode w = .ok i → encode i = w

/-- 30_encoding.md R64: a word encodes a mnemonic exactly when it matches under the mask, its fields being the bits R61
gives, and at most one mnemonic matches. -/
def Obligations.MatchMaskDecides : Prop :=
  ∀ w : Word,
    (w &&& 0x000000000000ffff#64 = 0x0000000000000001#64 ↔ decode w = .ok (.add
      (BitVec.ofNat 16 (w.toNat / 2 ^ 16)) (BitVec.ofNat 16 (w.toNat / 2 ^ 32)) (BitVec.ofNat 16 (w.toNat / 2 ^ 48)))) ∧
    (w &&& 0x000000000000ffff#64 = 0x0000000000000002#64 ↔ decode w = .ok (.sub
      (BitVec.ofNat 16 (w.toNat / 2 ^ 16)) (BitVec.ofNat 16 (w.toNat / 2 ^ 32)) (BitVec.ofNat 16 (w.toNat / 2 ^ 48)))) ∧
    (w &&& 0x000000000000ffff#64 = 0x0000000000000003#64 ↔ decode w = .ok (.mmul
      (BitVec.ofNat 16 (w.toNat / 2 ^ 16)) (BitVec.ofNat 16 (w.toNat / 2 ^ 32)) (BitVec.ofNat 16 (w.toNat / 2 ^ 48)))) ∧
    (w &&& 0xffff00000000ffff#64 = 0x0000000000000004#64 ↔ decode w = .ok (.tomont
      (BitVec.ofNat 16 (w.toNat / 2 ^ 16)) (BitVec.ofNat 16 (w.toNat / 2 ^ 32)))) ∧
    (w &&& 0xffff00000000ffff#64 = 0x0000000000000005#64 ↔ decode w = .ok (.tonorm
      (BitVec.ofNat 16 (w.toNat / 2 ^ 16)) (BitVec.ofNat 16 (w.toNat / 2 ^ 32)))) ∧
    ∀ i j : Instr, w &&& (matchMask i).2 = (matchMask i).1 → w &&& (matchMask j).2 = (matchMask j).1 →
      matchMask i = matchMask j

/-- 30_encoding.md R66, on the word as a number: ILLOP alone for an illegal opcode, otherwise RSVNZ and RANGE, each
where it applies. -/
def Obligations.CheckByArithmetic : Prop :=
  ∀ (n : Nat) (w : Word),
    let opc := w.toNat % 16
    let rsv := w.toNat / 2 ^ 4 % 2 ^ 12
    let dst := w.toNat / 2 ^ 16 % 2 ^ 16
    let srca := w.toNat / 2 ^ 32 % 2 ^ 16
    let srcb := w.toNat / 2 ^ 48
    ((opc < 1 ∨ 5 < opc) → check n w = 1#64) ∧
    (1 ≤ opc → opc ≤ 5 → check n w = BitVec.ofNat 64
      ((if rsv ≠ 0 ∨ (4 ≤ opc ∧ srcb ≠ 0) then 2 else 0) +
        (if n < dst + 6 ∨ n < srca + 6 ∨ (opc ≤ 3 ∧ n < srcb + 6) then 4 else 0)))

/-- 30_encoding.md R67: every word is exactly one of a legal command with its fields, or illegal with a nonzero
check. -/
def Obligations.EveryWordLegalOrIllegal : Prop :=
  ∀ (n : Nat) (w : Word),
    ((∃! i : Instr, decode w = .ok i ∧ i.wellFormed n = true ∧ encode i = w) ∧ check n w = 0) ∨
    ((¬ ∃ i : Instr, decode w = .ok i ∧ i.wellFormed n = true) ∧ check n w ≠ 0)

/-- 30_encoding.md R70: the encoding function as a sum of shifted fields, and its worked examples. -/
def Obligations.EncodeIsFieldSum : Prop :=
  (∀ d a b : BufAddr,
    (encode (.add d a b)).toNat = 1 + d.toNat * 2 ^ 16 + a.toNat * 2 ^ 32 + b.toNat * 2 ^ 48 ∧
    (encode (.sub d a b)).toNat = 2 + d.toNat * 2 ^ 16 + a.toNat * 2 ^ 32 + b.toNat * 2 ^ 48 ∧
    (encode (.mmul d a b)).toNat = 3 + d.toNat * 2 ^ 16 + a.toNat * 2 ^ 32 + b.toNat * 2 ^ 48 ∧
    (encode (.tomont d a)).toNat = 4 + d.toNat * 2 ^ 16 + a.toNat * 2 ^ 32 ∧
    (encode (.tonorm d a)).toNat = 5 + d.toNat * 2 ^ 16 + a.toNat * 2 ^ 32) ∧
  encode (.add 12 0 6) = 0x00060000000c0001#64 ∧
  encode (.sub 18 6 0) = 0x0000000600120002#64 ∧
  encode (.mmul 24 12 18) = 0x0012000c00180003#64 ∧
  encode (.tomont 12 0) = 0x00000000000c0004#64 ∧
  encode (.tonorm 30 24) = 0x00000018001e0005#64

/-- The words of 30_encoding.md R70's examples decode to their commands, and words of each illegal kind of R65 do not
decode. -/
def Obligations.WrittenOutWordsDecode : Prop :=
  decode 0x00060000000c0001#64 = .ok (.add 12 0 6) ∧
  decode 0x0000000600120002#64 = .ok (.sub 18 6 0) ∧
  decode 0x0012000c00180003#64 = .ok (.mmul 24 12 18) ∧
  decode 0x00000000000c0004#64 = .ok (.tomont 12 0) ∧
  decode 0x00000018001e0005#64 = .ok (.tonorm 30 24) ∧
  decode 0x0000000000000000#64 = .error .illop ∧
  decode 0x0000000000000011#64 = .error .rsvnz ∧
  decode 0x0006000600000004#64 = .error .rsvnz

/-- The canonical text of every command assembles to its word (30_encoding.md R69). -/
def Obligations.AssembleOfText : Prop :=
  ∀ i : Instr, Asm.assembleLine (Asm.text i) = .ok (some (encode i))

/-- `.word` emits any 64-bit word, legal or not (30_encoding.md R69). -/
def Obligations.AssembleRawWord : Prop :=
  ∀ w : Word, Asm.assembleLine (Asm.wordText w) = .ok (some w)

/-! ### A step -/

/-- Issuing a word that decodes runs the command it decodes to, on the state whose host list has moved past it
(30_encoding.md R60; 10_state.md R30). -/
def Obligations.StepRunsDecodedCommand : Prop :=
  ∀ (s : State) (w : Word) (rest : List HostOp) (i : Instr), s.cfg.sharedOmem = false →
    s.host = .issue w :: rest → decode w = .ok i → step s = exec i { s with host := rest }

/-- A command word placed for the next step runs as the command it encodes, the state otherwise as it was (the
placing is the model's, log entry 6; 10_state.md R21). -/
def Obligations.StepAfterFetchWord : Prop :=
  ∀ (s : State) (i : Instr), s.cfg.sharedOmem = false →
    step (s.withFetchWord 64 (encode i).toNat) = exec i s

/-- The words of a program are issued one after another, in order (30_encoding.md R60). -/
def Obligations.ProgramIssuedInOrder : Prop :=
  ∀ (s : State) (w : Word) (ws : List Word), s.cfg.sharedOmem = false →
    step (s.withProgram (w :: ws)) = hostIssue w (s.withProgram ws)

/-- With no host operation to come the core holds its state (60_exceptions.md R153; log entry 7). -/
def Obligations.IdleHoldsState : Prop :=
  ∀ s : State, s.cfg.sharedOmem = false → s.host = [] → step s = .next s

/-- A build in which two cores share one OMEM is refused (60_exceptions.md R151, R154 (c); the flag is the model's,
log entry 11). -/
def Obligations.SharedOmemRefused : Prop :=
  ∀ s : State, s.cfg.sharedOmem = true → step s = .refused .sharedOMEM

/-- No step changes the build: `MUL_TIER` and `OMEM_WORDS` are fixed while the core runs (41_montmul.md R110). -/
def Obligations.StepKeepsBuild : Prop :=
  ∀ s t : State, step s = .next t → t.cfg = s.cfg

/-! ### The host's operations (10_state.md R30) -/

/-- HostWriteWord(k, v) sets OMEM[k] and nothing else (10_state.md R30). -/
def Obligations.HostWriteSetsOneWord : Prop :=
  ∀ (s : State) (k : Nat) (v : Word) (rest : List HostOp), s.cfg.sharedOmem = false →
    s.host = .writeWord k v :: rest → k < s.cfg.omemWords →
    ∃ t, step s = .next t ∧ t.omem.read k = some v ∧ (∀ j, j ≠ k → t.omem.read j = s.omem.read j) ∧
      t.statusReg = s.statusReg ∧ t.errcmd = s.errcmd ∧ t.host = rest ∧ t.replies = s.replies ∧
      t.cfg = s.cfg ∧ t.draws = s.draws

/-- HostReadWord(k) returns OMEM[k], and is the fault UninitRead(k) where that word holds no value (10_state.md R23,
R30). -/
def Obligations.HostReadReturnsWord : Prop :=
  ∀ (s : State) (k : Nat) (rest : List HostOp), s.cfg.sharedOmem = false →
    s.host = .readWord k :: rest → k < s.cfg.omemWords →
    (∀ v, s.omem.read k = some v →
      step s = .next { s with host := rest, replies := s.replies ++ [v] }) ∧
    (s.omem.read k = none → step s = .fault (.uninitRead k))

/-- A host word access at an index past OMEM is refused (10_state.md R30; 60_exceptions.md R154 (b)). -/
def Obligations.HostRangeRefused : Prop :=
  ∀ (s : State) (k : Nat) (v : Word) (rest : List HostOp), s.cfg.sharedOmem = false → s.cfg.omemWords ≤ k →
    (s.host = .writeWord k v :: rest → step s = .refused (.hostRange k)) ∧
    (s.host = .readWord k :: rest → step s = .refused (.hostRange k))

/-- HostReadStatus returns STATUS, whose bits 63:3 read as 0, and HostReadErrcmd returns ERRCMD; neither changes
anything else (10_state.md R30, R31, R32). -/
def Obligations.HostReadsStatusAndErrcmd : Prop :=
  ∀ (s : State) (rest : List HostOp), s.cfg.sharedOmem = false →
    (s.host = .readStatus :: rest →
      step s = .next { s with host := rest, replies := s.replies ++ [s.statusReg] }) ∧
    (s.host = .readErrcmd :: rest →
      step s = .next { s with host := rest, replies := s.replies ++ [s.errcmd] }) ∧
    s.statusReg.toNat < 8

/-- 70_reset_and_hazards.md R160: Reset() and power-on leave STATUS and ERRCMD 0 and no OMEM word with a value, and
change nothing else; the host's list moves past the operation. -/
def Obligations.ResetSetsState : Prop :=
  (∀ (s : State) (rest : List HostOp), s.cfg.sharedOmem = false → s.host = .reset :: rest →
    ∃ t, step s = .next t ∧ t.statusReg = 0 ∧ t.errcmd = 0 ∧ (∀ k, t.omem.read k = none) ∧
      t.cfg = s.cfg ∧ t.host = rest ∧ t.replies = s.replies ∧ t.draws = s.draws) ∧
  (∀ c : Config, (State.powerOn c).statusReg = 0 ∧ (State.powerOn c).errcmd = 0 ∧
    (∀ k, (State.powerOn c).omem.read k = none) ∧ (State.powerOn c).cfg = c)

/-- A word written by the host is the word a later read returns (20_memory.md R47). -/
def Obligations.WriteThenReadReturns : Prop :=
  ∀ (s : State) (k : Nat) (v : Word) (rest : List HostOp), s.cfg.sharedOmem = false → k < s.cfg.omemWords →
    s.host = .writeWord k v :: .readWord k :: rest →
    ∃ t : State, Sys2Proof.core.run 2 s = .next t ∧ t.replies = s.replies ++ [v] ∧ t.host = rest

/-- A word written by a command is the word the host's next read returns (20_memory.md R47). -/
def Obligations.CommandThenReadReturns : Prop :=
  ∀ (s t : State) (w : Word) (i : Instr) (j v : Nat) (rest : List HostOp), s.cfg.sharedOmem = false →
    decode w = .ok i → i.wellFormed s.cfg.omemWords = true → j < 6 →
    s.host = .issue w :: .readWord (i.dest.toNat + j) :: rest →
    exec i { s with host := .readWord (i.dest.toNat + j) :: rest } = .next t → t.Holds i.dest v →
    ∃ u : State, Sys2Proof.core.run 2 s = .next u ∧
      u.replies = s.replies ++ [BitVec.ofNat 64 (v / 2 ^ (64 * j))] ∧ u.host = rest

/-! ### The illegal command (60_exceptions.md) -/

/-- 60_exceptions.md R143: an illegal command ORs its bits into STATUS, is captured in ERRCMD when STATUS was 0, and
changes nothing else; HostIssue returns normally. -/
def Obligations.IllegalCommandException : Prop :=
  ∀ (s : State) (w : Word) (rest : List HostOp), s.cfg.sharedOmem = false → s.host = .issue w :: rest →
    check s.cfg.omemWords w ≠ 0 →
    ∃ t, step s = .next t ∧ t.statusReg = s.statusReg ||| check s.cfg.omemWords w ∧
      t.errcmd = (if s.statusReg = 0 then w else s.errcmd) ∧ t.omem = s.omem ∧ t.cfg = s.cfg ∧
      t.host = rest ∧ t.replies = s.replies ∧ t.draws = s.draws

/-- 60_exceptions.md R145: while STATUS is not 0 a further illegal command ORs its bits in and leaves ERRCMD. -/
def Obligations.IllegalWhileStatusSet : Prop :=
  ∀ (s : State) (w : Word) (rest : List HostOp), s.cfg.sharedOmem = false → s.host = .issue w :: rest →
    check s.cfg.omemWords w ≠ 0 → s.statusReg ≠ 0 →
    ∃ t, step s = .next t ∧ t.statusReg = s.statusReg ||| check s.cfg.omemWords w ∧ t.errcmd = s.errcmd

/-- A command with a buffer out of range raises RANGE with its own word, and reads and writes no OMEM word, in every
form (20_memory.md R41, R43; 60_exceptions.md R141). -/
def Obligations.OutOfRangeRaisesRange : Prop :=
  ∀ (i : Instr) (s : State), i.wellFormed s.cfg.omemWords = false →
    ∃ t, exec i s = .next t ∧ t.statusReg = s.statusReg ||| 4#64 ∧
      t.errcmd = (if s.statusReg = 0 then encode i else s.errcmd) ∧ t.omem = s.omem ∧ t.cfg = s.cfg ∧
      t.host = s.host ∧ t.replies = s.replies ∧ t.draws = s.draws

/-- STATUS bits are sticky and a captured ERRCMD stays, at every step but Reset() (10_state.md R31, R32;
60_exceptions.md R144). -/
def Obligations.StatusIsSticky : Prop :=
  ∀ s t : State, step s = .next t → (∀ rest, s.host ≠ .reset :: rest) →
    t.statusReg &&& s.statusReg = s.statusReg ∧ (s.statusReg ≠ 0 → t.errcmd = s.errcmd)

/-- Only an illegal command or Reset() changes STATUS or ERRCMD (10_state.md R31, R32). -/
def Obligations.OnlyIllegalOrResetChangesStatus : Prop :=
  ∀ s t : State, step s = .next t → (t.statusReg ≠ s.statusReg ∨ t.errcmd ≠ s.errcmd) →
    (∃ rest, s.host = .reset :: rest) ∨
    (∃ w rest, s.host = .issue w :: rest ∧ check s.cfg.omemWords w ≠ 0)

/-- STATUS = 0 after a sequence of host operations without a Reset() certifies that every command of it was legal, and
an illegal one shows (60_exceptions.md R144). -/
def Obligations.StatusCertifiesSequence : Prop :=
  ∀ (ops rest : List HostOp) (s t : State), s.statusReg = 0 → s.host = ops ++ rest → .reset ∉ ops →
    Sys2Proof.core.run ops.length s = .next t →
    (t.statusReg = 0 ↔ ∀ w, .issue w ∈ ops → check s.cfg.omemWords w = 0)

/-! ### Every command -/

/-- A command whose buffers are in range and whose source words all hold a value completes, whatever the values
(70_reset_and_hazards.md R165; 40_addsub.md R80), and its destination then holds an element. -/
def Obligations.EveryCommandCompletes : Prop :=
  ∀ (i : Instr) (s : State), i.wellFormed s.cfg.omemWords = true →
    (∀ k ∈ i.sourceWords, s.omem.read k ≠ none) →
    ∃ t v, exec i s = .next t ∧ t.Holds i.dest v ∧ SameOutside i.dest s t ∧ SameControl s t

/-- A command faults by UninitRead, naming the first word of its sources, in the order it reads them, that holds no
value (10_state.md R23; 60_exceptions.md R154 (a); the order is deduced, log entry 15). -/
def Obligations.UninitReadNamesFirstWord : Prop :=
  ∀ (i : Instr) (s : State) (k : Nat), i.wellFormed s.cfg.omemWords = true →
    i.sourceWords.find? (fun k => (s.omem.read k).isNone) = some k → exec i s = .fault (.uninitRead k)

/-- A command is never refused, and faults only by reading a source word that holds no value (60_exceptions.md R154). -/
def Obligations.CommandFaultsOnlyUninit : Prop :=
  ∀ (i : Instr) (s : State), (∀ r, exec i s ≠ .refused r) ∧
    ∀ f, exec i s = .fault f →
      i.wellFormed s.cfg.omemWords = true ∧ ∃ k ∈ i.sourceWords, f = .uninitRead k ∧ s.omem.read k = none

/-- The frame of every command, in every form. Legal: only the six words at the destination change, STATUS and ERRCMD
do not. Out of range: no word changes. The build, the host's list and the replies never do; the count of free values
moves by at most one (20_memory.md R42, R43; 10_state.md R33; the count is the model's, log entry 4). -/
def Obligations.CommandFrame : Prop :=
  ∀ (i : Instr) (s t : State), exec i s = .next t →
    (i.wellFormed s.cfg.omemWords = true → SameOutside i.dest s t ∧ SameControl s t ∧
      (t.draws = s.draws ∨ t.draws = s.draws + 1)) ∧
    (i.wellFormed s.cfg.omemWords = false → (∀ k, t.omem.read k = s.omem.read k) ∧ t.cfg = s.cfg ∧
      t.host = s.host ∧ t.replies = s.replies ∧ t.draws = s.draws)

/-- A legal command with a source that is not reduced completes: it writes a free value, the model's next draw, and
sets no STATUS bit (40_addsub.md R80; the draw's form is the model's, log entry 4). -/
def Obligations.UnreducedSourceWritesFreeValue : Prop :=
  ∀ (i : Instr) (s : State) (xs : List Nat), i.wellFormed s.cfg.omemWords = true →
    List.Forall₂ s.Holds i.sources xs → (∃ x ∈ xs, Rom.n ≤ x) →
    ∃ t, exec i s = .next t ∧ t.Holds i.dest (Config.draw384 s.draws).toNat ∧ SameOutside i.dest s t ∧
      SameControl s t ∧ t.draws = s.draws + 1

/-- With reduced sources every command's result is reduced and no free value is drawn (40_addsub.md R83, R87;
41_montmul.md R105; 42_conversion.md R121, R123). -/
def Obligations.ReducedSourcesGiveReducedResult : Prop :=
  ∀ (i : Instr) (s : State) (xs : List Nat), i.wellFormed s.cfg.omemWords = true →
    List.Forall₂ s.Holds i.sources xs → (∀ x ∈ xs, x < Rom.n) →
    ∃ t r, exec i s = .next t ∧ r < Rom.n ∧ t.Holds i.dest r ∧ t.draws = s.draws

/-- The result depends on the source values alone: not on STATUS, ERRCMD, the rest of OMEM or the tier, so a recorded
error stops no later command (60_exceptions.md R144; 41_montmul.md R106). -/
def Obligations.ResultDependsOnSourcesOnly : Prop :=
  ∀ (i : Instr) (s s' : State) (xs : List Nat),
    i.wellFormed s.cfg.omemWords = true → i.wellFormed s'.cfg.omemWords = true →
    List.Forall₂ s.Holds i.sources xs → List.Forall₂ s'.Holds i.sources xs → (∀ x ∈ xs, x < Rom.n) →
    ∃ t t' r, exec i s = .next t ∧ exec i s' = .next t' ∧ t.Holds i.dest r ∧ t'.Holds i.dest r

/-- Issued again, a command with reduced sources that its destination does not overlap writes the same result again
(20_memory.md R46). -/
def Obligations.ReissueWritesSameResult : Prop :=
  ∀ (i : Instr) (s : State) (xs : List Nat), i.wellFormed s.cfg.omemWords = true →
    List.Forall₂ s.Holds i.sources xs → (∀ x ∈ xs, x < Rom.n) → (∀ k ∈ i.sourceWords, ¬ InBuf i.dest k) →
    ∃ t u, exec i s = .next t ∧ exec i t = .next u ∧ (∀ k, u.omem.read k = t.omem.read k) ∧ SameControl t u

/-! ### ADD and SUB (40_addsub.md) -/

/-- `ADD` writes (a + b) mod N at the destination and changes nothing else, whatever buffers overlap (40_addsub.md R81,
R83; 20_memory.md R42). -/
def Obligations.AddWritesModularSum : Prop :=
  ∀ (d a b : BufAddr) (s : State) (x y : Nat), (Instr.add d a b).wellFormed s.cfg.omemWords = true →
    s.Holds a x → s.Holds b y → x < Rom.n → y < Rom.n →
    ∃ t, exec (.add d a b) s = .next t ∧ t.Holds d ((x + y) % Rom.n) ∧ SameOutside d s t ∧ SameControl s t ∧
      t.draws = s.draws

/-- `SUB` writes (a − b) mod N at the destination and changes nothing else, whatever buffers overlap: a − b where
a ≥ b, else a − b + N (40_addsub.md R85, R87; 20_memory.md R42). -/
def Obligations.SubWritesModularDifference : Prop :=
  ∀ (d a b : BufAddr) (s : State) (x y : Nat), (Instr.sub d a b).wellFormed s.cfg.omemWords = true →
    s.Holds a x → s.Holds b y → x < Rom.n → y < Rom.n →
    ∃ t, exec (.sub d a b) s = .next t ∧ t.Holds d (if y ≤ x then x - y else x + Rom.n - y) ∧
      SameOutside d s t ∧ SameControl s t ∧ t.draws = s.draws

/-- The two fix-ups of `SUB`, adding N or subtracting 2^384 − N, give the same value for every pair of elements,
reduced or not (40_addsub.md R86; 93_implementation_defined.md U15). -/
def Obligations.SubFixupsAgree : Prop :=
  ∀ x y : Nat, x < 2 ^ 384 → y < 2 ^ 384 → subDatapathByCorr x y = subDatapath x y

/-- The final borrow of `ADD`'s trial subtraction is 1 exactly when a + b < N, and its sum never carries out
(40_addsub.md R83). -/
def Obligations.AddBorrowSelects : Prop :=
  ∀ x y : Nat, x < Rom.n → y < Rom.n →
    (addChain (words 6 x) (words 6 y) 0).2 = 0 ∧
    val (addChain (words 6 x) (words 6 y) 0).1 = x + y ∧
    (subChain (addChain (words 6 x) (words 6 y) 0).1 (words 6 Rom.n) 0).2 = (if x + y < Rom.n then 1 else 0)

/-! ### MMUL (41_montmul.md) -/

/-- `MMUL` writes the reduced r with r·R = a·b modulo N, R = 2^384, and changes nothing else, in every tier and
whatever buffers overlap (41_montmul.md R100, R105, R106; 20_memory.md R42). -/
def Obligations.MmulWritesMontgomeryProduct : Prop :=
  ∀ (d a b : BufAddr) (s : State) (x y : Nat), (Instr.mmul d a b).wellFormed s.cfg.omemWords = true →
    s.Holds a x → s.Holds b y → x < Rom.n → y < Rom.n →
    ∃ t r, exec (.mmul d a b) s = .next t ∧ r < Rom.n ∧ r * 2 ^ 384 % Rom.n = x * y % Rom.n ∧ t.Holds d r ∧
      SameOutside d s t ∧ SameControl s t ∧ t.draws = s.draws

/-- `MMUL` is commutative (41_montmul.md R105). -/
def Obligations.MmulCommutes : Prop :=
  ∀ (d a b : BufAddr) (s : State) (x y : Nat), (Instr.mmul d a b).wellFormed s.cfg.omemWords = true →
    s.Holds a x → s.Holds b y → x < Rom.n → y < Rom.n →
    ∃ t, exec (.mmul d a b) s = .next t ∧ exec (.mmul d b a) s = .next t

/-- 41_montmul.md R103: the rounds on words and on values give the same T and the same quotient digits m_i; the
division of each round is exact; and T·2^384 = a·b + M·N with M = Σ m_i·2^(64·i) below 2^384. -/
def Obligations.CiosAgreesWithValueForm : Prop :=
  ∀ x y : Nat, x < Rom.n → y < Rom.n →
    let la := words 6 x
    let lb := words 6 y
    let u := fun i => valueRounds x (lb.take i) + x * (lb.getD i 0).toNat
    let m := fun i => u i % 2 ^ 64 * Rom.nprime.toNat % 2 ^ 64
    val ((ciosAcc la lb).drop 6) = valueRounds x lb ∧
    (∀ i < 6, (quotientDigit i (rowAt i (ciosAcc la (lb.take i)) la (lb.getD i 0))).toNat = m i ∧
      2 ^ 64 * valueRounds x (lb.take (i + 1)) = u i + m i * Rom.n) ∧
    2 ^ 384 * valueRounds x lb = x * y + (∑ i ∈ Finset.range 6, m i * 2 ^ (64 * i)) * Rom.n ∧
    ∑ i ∈ Finset.range 6, m i * 2 ^ (64 * i) < 2 ^ 384

/-- The invariants of the rounds (41_montmul.md R102): before round i the words from i + 6 up are 0; both rows of
round i add exactly, losing no carry; after it the words up to i are 0, the accumulator is T_i·2^(64·(i+1)), and
T_i < 2N. -/
def Obligations.CiosRoundInvariants : Prop :=
  ∀ (x y i : Nat), x < Rom.n → y < Rom.n → i < 6 →
    let la := words 6 x
    let lb := words 6 y
    let acc0 := ciosAcc la (lb.take i)
    let acc1 := rowAt i acc0 la (lb.getD i 0)
    let acc2 := ciosAcc la (lb.take (i + 1))
    let t := valueRounds x (lb.take (i + 1))
    (∀ k, i + 6 ≤ k → acc0.getD k 0 = 0) ∧
    val (acc1.drop i) = val (acc0.drop i) + x * (lb.getD i 0).toNat ∧
    val (acc2.drop i) = val (acc1.drop i) + (quotientDigit i acc1).toNat * Rom.n ∧
    val (acc1.drop i) < 2 ^ 448 ∧ val (acc2.drop i) < 2 ^ 448 ∧
    (∀ k ≤ i, acc2.getD k 0 = 0) ∧
    val acc2 = t * 2 ^ (64 * (i + 1)) ∧ t < 2 * Rom.n

/-- Whatever the tier, `MMUL` writes for reduced operands the reference datapath's value, which is a·b·R⁻¹ mod N
(41_montmul.md R106); for an operand that is not reduced it writes a free value (40_addsub.md R80), which is the draw
numbered by the state's counter. The numbering is the model's choice, log entry 4. -/
def Obligations.TiersBitIdentical : Prop :=
  (∀ (tier : MulTier) (x y : Nat), x < Rom.n → y < Rom.n →
    montMul tier x y = ciosReference x y ∧ montMul tier x y = x * y * Rom.rInv % Rom.n) ∧
  ∀ (d a b : BufAddr) (s : State) (x y : Nat), (Instr.mmul d a b).wellFormed s.cfg.omemWords = true →
    s.Holds a x → s.Holds b y →
    ∃ t, exec (.mmul d a b) s = .next t ∧
      (x < Rom.n → y < Rom.n → t.Holds d (ciosReference x y)) ∧
      (Rom.n ≤ x ∨ Rom.n ≤ y → t.Holds d (Config.draw384 s.draws).toNat)

/-- Two builds that differ only in the tier answer every command on reduced sources alike (00_scope.md R9;
42_conversion.md R125). -/
def Obligations.TierDoesNotShow : Prop :=
  ∀ (i : Instr) (s : State) (tier : MulTier) (xs : List Nat), i.wellFormed s.cfg.omemWords = true →
    List.Forall₂ s.Holds i.sources xs → (∀ x ∈ xs, x < Rom.n) →
    ∃ t, exec i s = .next t ∧
      exec i { s with cfg := { s.cfg with mulTier := tier } } =
        .next { t with cfg := { t.cfg with mulTier := tier } }

/-- The ROM constants and the facts about them (10_state.md R25, R26, R28, R35 (a), (b), (c), (e), (f)). -/
def Obligations.RomConstantFacts : Prop :=
  Rom.corr = 2 ^ 384 - Rom.n ∧ Rom.r2 = 2 ^ 768 % Rom.n ∧
  Rom.n * Rom.nprime.toNat % 2 ^ 64 = 2 ^ 64 - 1 ∧
  2 ^ 380 ≤ Rom.n ∧ Rom.n < 2 ^ 381 ∧ (words 6 Rom.n).all (· != 0xffffffffffffffff#64) = true ∧ Rom.n % 2 = 1 ∧
  2 ^ 384 % Rom.n = 0x15f65ec3fa80e493_5c071a97a256ec6d_77ce585370525745_5f48985753c758ba_ebf4000bc40c0002_760900000002fffd ∧
  Rom.rInv < Rom.n ∧ Rom.rInv * 2 ^ 384 % Rom.n = 1

/-! ### TOMONT and TONORM (42_conversion.md) -/

/-- 42_conversion.md R121: `TOMONT` writes a·(R² mod N)·R⁻¹ mod N = a·R mod N = mont(a), which is reduced, and its
second operand R² mod N is reduced; nothing else changes. -/
def Obligations.TomontWritesMontgomeryForm : Prop :=
  Rom.r2 = 2 ^ 384 * 2 ^ 384 % Rom.n ∧ Rom.r2 < Rom.n ∧
  ∀ (d a : BufAddr) (s : State) (x : Nat), (Instr.tomont d a).wellFormed s.cfg.omemWords = true →
    s.Holds a x → x < Rom.n →
    x * Rom.r2 * Rom.rInv % Rom.n = x * 2 ^ 384 % Rom.n ∧
    ∃ t, exec (.tomont d a) s = .next t ∧ t.Holds d (x * 2 ^ 384 % Rom.n) ∧ SameOutside d s t ∧
      SameControl s t ∧ t.draws = s.draws

/-- 42_conversion.md R123: `TONORM` writes a·R⁻¹ mod N, which is reduced and is z where a = mont(z); nothing else
changes. -/
def Obligations.TonormWritesNormalForm : Prop :=
  Rom.rInv * 2 ^ 384 % Rom.n = 1 ∧
  ∀ (d a : BufAddr) (s : State) (x : Nat), (Instr.tonorm d a).wellFormed s.cfg.omemWords = true →
    s.Holds a x → x < Rom.n →
    ∃ t, exec (.tonorm d a) s = .next t ∧ t.Holds d (x * Rom.rInv % Rom.n) ∧
      (∀ z, z < Rom.n → x = z * 2 ^ 384 % Rom.n → t.Holds d z) ∧ SameOutside d s t ∧ SameControl s t ∧
      t.draws = s.draws

/-- 42_conversion.md R124: TONORM(TOMONT(a)) = a, and TONORM(MMUL(TOMONT(a), TOMONT(b))) = a·b mod N, as commands one
after another. In the second, b is not overwritten by the first result, nor the first result by the second. -/
def Obligations.DomainRoundTripAndProduct : Prop :=
  (∀ (d e a : BufAddr) (s : State) (x : Nat), (Instr.tomont d a).wellFormed s.cfg.omemWords = true →
    (Instr.tonorm e d).wellFormed s.cfg.omemWords = true → s.Holds a x → x < Rom.n →
    ∃ t u, exec (.tomont d a) s = .next t ∧ exec (.tonorm e d) t = .next u ∧ u.Holds e x) ∧
  (∀ (a b p q m r : BufAddr) (s : State) (x y : Nat),
    (Instr.tomont p a).wellFormed s.cfg.omemWords = true → (Instr.tomont q b).wellFormed s.cfg.omemWords = true →
    (Instr.mmul m p q).wellFormed s.cfg.omemWords = true → (Instr.tonorm r m).wellFormed s.cfg.omemWords = true →
    (∀ i < 6, ¬ InBuf p (b.toNat + i)) → (∀ i < 6, ¬ InBuf q (p.toNat + i)) →
    s.Holds a x → s.Holds b y → x < Rom.n → y < Rom.n →
    ∃ s1 s2 s3 s4, exec (.tomont p a) s = .next s1 ∧ exec (.tomont q b) s1 = .next s2 ∧
      exec (.mmul m p q) s2 = .next s3 ∧ exec (.tonorm r m) s3 = .next s4 ∧ s4.Holds r (x * y % Rom.n))

/-! ### The invariant -/

/-- Every step keeps the invariant: the build's bounds, OMEM's canonical form and bounds, the hard-wired STATUS bits,
and what ERRCMD holds (00_scope.md R10; 10_state.md R22, R31, R32; 60_exceptions.md R143). -/
def Obligations.StepKeepsInvariant : Prop :=
  ∀ s t : State, s.Inv → step s = .next t → t.Inv

/-- Power-on of every build the spec allows meets the invariant (70_reset_and_hazards.md R160). -/
def Obligations.PowerOnHasInvariant : Prop :=
  State.reset.Inv ∧ ∀ c : Config, c.wf = true → (State.powerOn c).Inv

/-- In every state the invariant holds of, reading STATUS = 0 means ERRCMD is 0, and reading anything else means
ERRCMD is a word illegal in this build (10_state.md R32). -/
def Obligations.ErrcmdReadsIllegalWord : Prop :=
  ∀ s : State, s.Inv →
    (s.statusReg = 0 → s.errcmd = 0) ∧
    (s.statusReg ≠ 0 → check s.cfg.omemWords s.errcmd ≠ 0 ∧
      check s.cfg.omemWords s.errcmd &&& s.statusReg = check s.cfg.omemWords s.errcmd)

/-- ERRCMD holds the first illegal command: after a sequence of host operations without a Reset(), from a state with
STATUS 0, it is the first word issued in the sequence that is illegal in this build, and where there is none it is
what it was (10_state.md R32). -/
def Obligations.ErrcmdCapturesFirstIllegal : Prop :=
  ∀ (ops rest : List HostOp) (s t : State), s.statusReg = 0 → s.host = ops ++ rest → .reset ∉ ops →
    Sys2Proof.core.run ops.length s = .next t →
    t.errcmd = ((ops.filterMap HostOp.command).find? fun w => check s.cfg.omemWords w != 0).getD s.errcmd
end

