-- ==== Sys2Proof/Laws/Limbs.lean ====
section
/-! SUPPORT. `val` and `words` are inverse to each other (00_scope.md R13). -/

namespace Sys2Proof.Machine

@[simp] theorem words_length (n v : Nat) : (words n v).length = n := by
  induction n generalizing v with
  | zero => rfl
  | succ n ih => simp [words, ih]

theorem val_lt (ws : List Word) : val ws < 2 ^ (64 * ws.length) := by
  induction ws with
  | nil => simp [val]
  | cons w ws ih =>
    have hw := w.isLt
    have : 2 ^ (64 * (w :: ws).length) = 2 ^ 64 * 2 ^ (64 * ws.length) := by
      rw [← pow_add, List.length_cons]; ring_nf
    rw [this, val]
    nlinarith

theorem val_words (n v : Nat) : val (words n v) = v % 2 ^ (64 * n) := by
  induction n generalizing v with
  | zero => simp [words, val, Nat.mod_one]
  | succ n ih =>
    rw [words, val, ih, BitVec.toNat_ofNat, Nat.mul_succ, Nat.add_comm (64 * n), pow_add, Nat.mod_mul]

theorem val_words_of_lt {n v : Nat} (h : v < 2 ^ (64 * n)) : val (words n v) = v := by
  rw [val_words, Nat.mod_eq_of_lt h]

theorem words_val (ws : List Word) : words ws.length (val ws) = ws := by
  induction ws with
  | nil => rfl
  | cons w ws ih =>
    have h1 : (w.toNat + 2 ^ 64 * val ws) / 2 ^ 64 = val ws := by
      have := w.isLt; omega
    have h2 : BitVec.ofNat 64 (w.toNat + 2 ^ 64 * val ws) = w := by
      apply BitVec.eq_of_toNat_eq
      have := w.isLt
      rw [BitVec.toNat_ofNat]
      omega
    rw [List.length_cons, val, words, h1, h2, ih]

/-- R13's formula for word i. -/
theorem words_getElem? {n i : Nat} (h : i < n) (v : Nat) :
    (words n v)[i]? = some (BitVec.ofNat 64 (v / 2 ^ (64 * i))) := by
  induction n generalizing i v with
  | zero => omega
  | succ n ih =>
    cases i with
    | zero => simp [words]
    | succ i =>
      rw [words, List.getElem?_cons_succ, ih (by omega), Nat.div_div_eq_div_mul, ← pow_add]
      congr 4; ring

theorem val_append (xs ys : List Word) : val (xs ++ ys) = val xs + 2 ^ (64 * xs.length) * val ys := by
  induction xs with
  | nil => simp [val]
  | cons x xs ih =>
    rw [List.cons_append, val, val, ih, List.length_cons, Nat.mul_succ, Nat.add_comm (64 * xs.length), pow_add]
    ring

theorem val_replicate_zero (n : Nat) : val (List.replicate n 0) = 0 := by
  induction n with
  | zero => rfl
  | succ n ih => rw [List.replicate_succ, val, ih]; rfl

theorem val_drop {ws : List Word} {i : Nat} (h : val (ws.take i) = 0) (hi : i ≤ ws.length) :
    val ws = 2 ^ (64 * i) * val (ws.drop i) := by
  conv_lhs => rw [← List.take_append_drop i ws]
  rw [val_append, h, Nat.zero_add, List.length_take, Nat.min_eq_left hi]

end Sys2Proof.Machine
end

