-- ==== Sys2Proof/Laws/Chains.lean ====
section
/-! SUPPORT. What the carry and borrow chains, the conditional subtraction and the `ADD` and `SUB` datapaths compute
(40_addsub.md R83, R87). -/

namespace Sys2Proof.Machine

/-! ### One word -/

theorem addCarry_spec (x y : Word) (c : Nat) :
    (addCarry x y c).1.toNat + 2 ^ 64 * (addCarry x y c).2 = x.toNat + y.toNat + c := by
  simp only [addCarry, BitVec.toNat_ofNat]
  omega

theorem subBorrow_spec (x y : Word) {br : Nat} (h : br ≤ 1) :
    (subBorrow x y br).1.toNat + y.toNat + br = x.toNat + 2 ^ 64 * (subBorrow x y br).2 ∧
      (subBorrow x y br).2 ≤ 1 := by
  have hx := x.isLt
  have hy := y.isLt
  simp only [subBorrow, BitVec.toNat_ofInt]
  split <;> omega

/-! ### Chains -/

@[simp] theorem addChain_length {xs ys : List Word} (h : xs.length = ys.length) (c : Nat) :
    (addChain xs ys c).1.length = xs.length := by
  induction xs generalizing ys c with
  | nil => rfl
  | cons x xs ih =>
    cases ys with
    | nil => simp at h
    | cons y ys => simp [addChain, ih (ys := ys) (by simpa using h)]

/-- The carry chain adds exactly. -/
theorem addChain_spec {xs ys : List Word} (h : xs.length = ys.length) (c : Nat) :
    val (addChain xs ys c).1 + 2 ^ (64 * xs.length) * (addChain xs ys c).2 = val xs + val ys + c := by
  induction xs generalizing ys c with
  | nil => cases ys <;> simp_all [addChain, val]
  | cons x xs ih =>
    cases ys with
    | nil => simp at h
    | cons y ys =>
      have h1 := addCarry_spec x y c
      have h2 := ih (ys := ys) (by simpa using h) (addCarry x y c).2
      simp only [addChain, val, List.length_cons, Nat.mul_succ, Nat.add_comm (64 * xs.length), pow_add]
      linear_combination h1 + 2 ^ 64 * h2

@[simp] theorem subChain_length {xs ys : List Word} (h : xs.length = ys.length) (br : Nat) :
    (subChain xs ys br).1.length = xs.length := by
  induction xs generalizing ys br with
  | nil => rfl
  | cons x xs ih =>
    cases ys with
    | nil => simp at h
    | cons y ys => simp [subChain, ih (ys := ys) (by simpa using h)]

/-- The borrow chain subtracts exactly, up to one final borrow. -/
theorem subChain_spec {xs ys : List Word} (h : xs.length = ys.length) {br : Nat} (hb : br ≤ 1) :
    val (subChain xs ys br).1 + val ys + br = val xs + 2 ^ (64 * xs.length) * (subChain xs ys br).2 ∧
      (subChain xs ys br).2 ≤ 1 := by
  induction xs generalizing ys br with
  | nil => cases ys <;> simp_all [subChain, val]
  | cons x xs ih =>
    cases ys with
    | nil => simp at h
    | cons y ys =>
      obtain ⟨h1, h1'⟩ := subBorrow_spec x y hb
      obtain ⟨h2, h2'⟩ := ih (ys := ys) (by simpa using h) h1'
      simp only [subChain, val, List.length_cons, Nat.mul_succ, Nat.add_comm (64 * xs.length), pow_add]
      exact ⟨by linear_combination h1 + 2 ^ 64 * h2, h2'⟩

/-! ### Selection -/

@[simp] theorem selectWord_one (s d : Word) : selectWord (maskOf 1) s d = s := by
  rw [selectWord, maskOf, if_pos rfl, BitVec.and_allOnes, BitVec.not_allOnes, BitVec.and_zero, BitVec.or_zero]

@[simp] theorem selectWord_zero (s d : Word) : selectWord (maskOf 0) s d = d := by
  have hm : maskOf 0 = 0#64 := rfl
  rw [selectWord, hm, BitVec.and_zero, BitVec.zero_or, BitVec.not_zero, BitVec.and_allOnes]

theorem zipWith_selectWord {ss ds : List Word} (h : ss.length = ds.length) {br : Nat} (hb : br ≤ 1) :
    List.zipWith (selectWord (maskOf br)) ss ds = if br = 1 then ss else ds := by
  induction ss generalizing ds with
  | nil => cases ds <;> simp_all
  | cons s ss ih =>
    cases ds with
    | nil => simp at h
    | cons d ds =>
      rw [List.zipWith_cons_cons, ih (by simpa using h)]
      interval_cases br <;> simp

theorem map_and_maskOf (ws : List Word) {br : Nat} (hb : br ≤ 1) :
    val (ws.map (· &&& maskOf br)) = br * val ws := by
  interval_cases br
  · have : (ws.map (· &&& maskOf 0)) = List.replicate ws.length 0 := by
      rw [maskOf, if_neg (by decide), ← List.map_const']
      exact List.map_congr_left fun w _ => BitVec.and_zero
    rw [this, val_replicate_zero, Nat.zero_mul]
  · have : (ws.map (· &&& maskOf 1)) = ws := by
      rw [maskOf, if_pos rfl]
      exact (List.map_congr_left fun w _ => BitVec.and_allOnes).trans (List.map_id _)
    rw [this, Nat.one_mul]

theorem val_words_n : val (words 6 Rom.n) = Rom.n := val_words_of_lt (n := 6) (by decide +kernel)

theorem val_words_corr : val (words 6 Rom.corr) = Rom.corr := val_words_of_lt (n := 6) (by decide +kernel)

/-- 2^384 as the sum of the two ROM constants (10_state.md R25). -/
theorem n_add_corr : Rom.n + Rom.corr = 2 ^ (64 * 6) := by decide +kernel

/-- The conditional subtraction of N (40_addsub.md R82; 41_montmul.md R104): N is taken off exactly when it can be. -/
theorem val_condSubN {s : List Word} (h : s.length = 6) :
    val (condSubN s) = if val s < Rom.n then val s else val s - Rom.n := by
  have hl : s.length = (words 6 Rom.n).length := by simp [h]
  obtain ⟨h1, h2⟩ := subChain_spec hl (Nat.zero_le 1)
  have hlen := subChain_length hl 0
  rw [val_words_n, h] at h1
  have hd := val_lt (subChain s (words 6 Rom.n) 0).1
  rw [hlen, h] at hd
  have hs := val_lt s
  rw [h] at hs
  simp only [condSubN]
  rw [zipWith_selectWord hlen.symm h2, apply_ite val]
  generalize (subChain s (words 6 Rom.n) 0).2 = br at *
  generalize val (subChain s (words 6 Rom.n) 0).1 = d at *
  interval_cases br
  · rw [if_neg (by omega), if_neg (by omega)]
    omega
  · rw [if_pos rfl, if_pos (by omega)]

/-- One conditional subtraction reduces any value below 2N. -/
theorem val_condSubN_mod {s : List Word} (h : s.length = 6) (hs : val s < 2 * Rom.n) :
    val (condSubN s) = val s % Rom.n := by
  rw [val_condSubN h]
  split
  · rw [Nat.mod_eq_of_lt (by assumption)]
  · rw [Nat.mod_eq_sub_mod (by omega), Nat.mod_eq_of_lt (by omega)]

theorem n_lt : 2 * Rom.n < 2 ^ (64 * 6) := by decide +kernel

/-! ### The datapaths -/

/-- `ADD`'s datapath on reduced operands (40_addsub.md R83). -/
theorem addDatapath_eq {a b : Nat} (ha : a < Rom.n) (hb : b < Rom.n) :
    addDatapath a b = (a + b) % Rom.n := by
  have hn := n_lt
  have h := addChain_spec (xs := words 6 a) (ys := words 6 b) (by simp) 0
  have hl := addChain_length (xs := words 6 a) (ys := words 6 b) (by simp) 0
  rw [words_length] at h hl
  rw [val_words_of_lt (n := 6) (by omega), val_words_of_lt (n := 6) (by omega)] at h
  have hc : (addChain (words 6 a) (words 6 b) 0).2 = 0 := by
    by_contra hne
    have : 2 ^ (64 * 6) * 1 ≤ 2 ^ (64 * 6) * (addChain (words 6 a) (words 6 b) 0).2 :=
      Nat.mul_le_mul_left _ (by omega)
    omega
  rw [hc, Nat.mul_zero, Nat.add_zero, Nat.add_zero] at h
  rw [addDatapath, val_condSubN_mod hl (by omega), h]

/-- The difference chain of `SUB`: its words and its borrow. -/
theorem subChain_words {a b : Nat} (ha : a < 2 ^ (64 * 6)) (hb : b < 2 ^ (64 * 6)) :
    (subChain (words 6 a) (words 6 b) 0).1.length = 6 ∧
    (subChain (words 6 a) (words 6 b) 0).2 = (if a < b then 1 else 0) ∧
    val (subChain (words 6 a) (words 6 b) 0).1 = if a < b then a + 2 ^ (64 * 6) - b else a - b := by
  obtain ⟨h1, h2⟩ := subChain_spec (xs := words 6 a) (ys := words 6 b) (by simp) (Nat.zero_le 1)
  have hl := subChain_length (xs := words 6 a) (ys := words 6 b) (by simp) 0
  have hd := val_lt (subChain (words 6 a) (words 6 b) 0).1
  rw [hl] at hd
  rw [words_length] at h1 hl hd
  rw [val_words_of_lt ha, val_words_of_lt hb] at h1
  refine ⟨hl, ?_⟩
  generalize (subChain (words 6 a) (words 6 b) 0).2 = br at *
  generalize val (subChain (words 6 a) (words 6 b) 0).1 = d at *
  generalize 2 ^ (64 * 6) = M at *
  interval_cases br <;> split <;> omega

/-- `SUB`'s datapath on any operands: the difference, plus N modulo 2^384 where it borrowed (40_addsub.md R86). -/
theorem subDatapath_raw {a b : Nat} (ha : a < 2 ^ (64 * 6)) (hb : b < 2 ^ (64 * 6)) :
    subDatapath a b = if a < b then (a + 2 ^ (64 * 6) - b + Rom.n) % 2 ^ (64 * 6) else a - b := by
  obtain ⟨hl, hbr, hv⟩ := subChain_words ha hb
  have hle : (subChain (words 6 a) (words 6 b) 0).2 ≤ 1 := by rw [hbr]; split <;> omega
  have h := addChain_spec (xs := (subChain (words 6 a) (words 6 b) 0).1)
    (ys := (words 6 Rom.n).map (· &&& maskOf (subChain (words 6 a) (words 6 b) 0).2)) (by simp [hl]) 0
  have hw := val_lt (addChain (subChain (words 6 a) (words 6 b) 0).1
    ((words 6 Rom.n).map (· &&& maskOf (subChain (words 6 a) (words 6 b) 0).2)) 0).1
  rw [addChain_length (by simp [hl]), hl] at hw
  rw [map_and_maskOf _ hle, val_words_n, hl, hv, hbr] at h
  simp only [subDatapath]
  rw [hbr] at hw ⊢
  split at h
  · rename_i hlt
    simp only [hlt, if_true] at *
    rw [show a + 2 ^ (64 * 6) - b + Rom.n = a + 2 ^ (64 * 6) - b + 1 * Rom.n + 0 by omega, ← h,
      Nat.add_mul_mod_self_left, Nat.mod_eq_of_lt hw]
  · rename_i hlt
    simp only [hlt, if_false] at *
    generalize (addChain _ _ 0).2 = c at *
    generalize 2 ^ (64 * 6) = M at *
    rcases Nat.eq_zero_or_pos c with rfl | hp
    · omega
    · have : M * 1 ≤ M * c := Nat.mul_le_mul_left _ hp
      omega

/-- `SUB`'s datapath on reduced operands (40_addsub.md R87). -/
theorem subDatapath_eq {a b : Nat} (ha : a < Rom.n) (hb : b < Rom.n) :
    subDatapath a b = (a + Rom.n - b) % Rom.n := by
  have hn := n_lt
  rw [subDatapath_raw (by omega) (by omega)]
  generalize 2 ^ (64 * 6) = M at *
  split
  · rw [show a + M - b + Rom.n = a + Rom.n - b + M by omega, Nat.add_mod_right, Nat.mod_eq_of_lt (by omega),
      Nat.mod_eq_of_lt (by omega)]
  · rw [show a + Rom.n - b = a - b + Rom.n by omega, Nat.add_mod_right, Nat.mod_eq_of_lt (by omega)]

end Sys2Proof.Machine
end

