-- ==== Sys2Proof/Laws/Decode.lean ====
section
/-! SUPPORT. The fields of an encoded command and its legality (30_encoding.md R61, R66, R70). -/

namespace Sys2Proof

@[simp] theorem opcField_enc (o : BitVec 4) (d a b : BufAddr) : opcField (enc o d a b) = o := by
  apply BitVec.eq_of_getLsbD_eq
  intro i hi
  have h1 : i < 16 := by omega
  have h2 : i < 32 := by omega
  have h3 : i < 48 := by omega
  simp [opcField, enc, hi, h1, h2, h3]
  omega

@[simp] theorem rsvField_enc (o : BitVec 4) (d a b : BufAddr) : rsvField (enc o d a b) = 0 := by
  apply BitVec.eq_of_getLsbD_eq
  intro i hi
  have h1 : 4 + i < 16 := by omega
  have h2 : 4 + i < 32 := by omega
  have h3 : 4 + i < 48 := by omega
  simp [rsvField, enc, h1, h2, h3]

@[simp] theorem dstField_enc (o : BitVec 4) (d a b : BufAddr) : dstField (enc o d a b) = d := by
  apply BitVec.eq_of_getLsbD_eq
  intro i hi
  have h2 : 16 + i < 32 := by omega
  have h3 : 16 + i < 48 := by omega
  have h4 : 16 + i < 64 := by omega
  simp [dstField, enc, hi, h2, h3, h4, BitVec.getLsbD_of_ge o (16 + i) (by omega)]

@[simp] theorem srcaField_enc (o : BitVec 4) (d a b : BufAddr) : srcaField (enc o d a b) = a := by
  apply BitVec.eq_of_getLsbD_eq
  intro i hi
  have h3 : 32 + i < 48 := by omega
  have h4 : 32 + i < 64 := by omega
  have h5 : 16 ≤ 32 + i - 16 := by omega
  simp [srcaField, enc, hi, h3, h4, BitVec.getLsbD_of_ge d _ h5, BitVec.getLsbD_of_ge o (32 + i) (by omega)]

@[simp] theorem srcbField_enc (o : BitVec 4) (d a b : BufAddr) : srcbField (enc o d a b) = b := by
  apply BitVec.eq_of_getLsbD_eq
  intro i hi
  have h4 : 48 + i < 64 := by omega
  have h5 : 16 ≤ 48 + i - 16 := by omega
  have h6 : 16 ≤ 48 + i - 32 := by omega
  simp [srcbField, enc, hi, h4, BitVec.getLsbD_of_ge d _ h5, BitVec.getLsbD_of_ge a _ h6,
    BitVec.getLsbD_of_ge o (48 + i) (by omega)]

/-- An encoded command can only be illegal by its range (30_encoding.md R65, R66 (d)). -/
theorem check_encode (n : Nat) (i : Instr) :
    check n (encode i) = if i.wellFormed n then 0 else rangeBit := by
  cases i <;>
    simp [check, encode, isBinaryOpc, isUnaryOpc, Instr.wellFormed, Instr.dest, Instr.sources]

theorem check_encode_eq_zero (n : Nat) (i : Instr) : check n (encode i) = 0 ↔ i.wellFormed n = true := by
  rw [check_encode]
  split <;> simp_all [rangeBit]

end Sys2Proof
end

