-- ==== Sys2Proof/Laws/State.lean ====
section
/-! SUPPORT. One lemma per field per update of State. -/

namespace Sys2Proof.Machine

variable (s : State)

/-! memWrite -/
@[simp] theorem State.memWrite_omem (a n v : Nat) :
    (s.memWrite a n v).omem = s.omem.writeWords a (words n v) := rfl
@[simp] theorem State.memWrite_status (a n v : Nat) : (s.memWrite a n v).status = s.status := rfl
@[simp] theorem State.memWrite_statusReg (a n v : Nat) : (s.memWrite a n v).statusReg = s.statusReg := rfl
@[simp] theorem State.memWrite_errcmd (a n v : Nat) : (s.memWrite a n v).errcmd = s.errcmd := rfl
@[simp] theorem State.memWrite_cfg (a n v : Nat) : (s.memWrite a n v).cfg = s.cfg := rfl
@[simp] theorem State.memWrite_host (a n v : Nat) : (s.memWrite a n v).host = s.host := rfl
@[simp] theorem State.memWrite_replies (a n v : Nat) : (s.memWrite a n v).replies = s.replies := rfl
@[simp] theorem State.memWrite_draws (a n v : Nat) : (s.memWrite a n v).draws = s.draws := rfl

/-! afterDraw -/
@[simp] theorem State.afterDraw_omem : s.afterDraw.omem = s.omem := rfl
@[simp] theorem State.afterDraw_status : s.afterDraw.status = s.status := rfl
@[simp] theorem State.afterDraw_statusReg : s.afterDraw.statusReg = s.statusReg := rfl
@[simp] theorem State.afterDraw_errcmd : s.afterDraw.errcmd = s.errcmd := rfl
@[simp] theorem State.afterDraw_cfg : s.afterDraw.cfg = s.cfg := rfl
@[simp] theorem State.afterDraw_host : s.afterDraw.host = s.host := rfl
@[simp] theorem State.afterDraw_replies : s.afterDraw.replies = s.replies := rfl
@[simp] theorem State.afterDraw_draws : s.afterDraw.draws = s.draws + 1 := rfl

/-! setStatus -/
@[simp] theorem State.setStatus_omem (v : Word) : (s.setStatus v).omem = s.omem := rfl
@[simp] theorem State.setStatus_status (v : Word) : (s.setStatus v).status = v &&& statusMask := rfl
@[simp] theorem State.setStatus_errcmd (v : Word) : (s.setStatus v).errcmd = s.errcmd := rfl
@[simp] theorem State.setStatus_cfg (v : Word) : (s.setStatus v).cfg = s.cfg := rfl
@[simp] theorem State.setStatus_host (v : Word) : (s.setStatus v).host = s.host := rfl
@[simp] theorem State.setStatus_replies (v : Word) : (s.setStatus v).replies = s.replies := rfl
@[simp] theorem State.setStatus_draws (v : Word) : (s.setStatus v).draws = s.draws := rfl

/-- The hard-wired STATUS bits read 0 after any write (10_state.md R31). -/
@[simp] theorem State.setStatus_statusReg (v : Word) : (s.setStatus v).statusReg = v &&& statusMask := by
  simp [State.statusReg, BitVec.and_assoc]

/-! raiseCmdError -/
@[simp] theorem State.raiseCmdError_omem (b c : Word) : (s.raiseCmdError b c).omem = s.omem := by
  unfold State.raiseCmdError; split <;> rfl
@[simp] theorem State.raiseCmdError_status (b c : Word) :
    (s.raiseCmdError b c).status = (s.statusReg ||| b) &&& statusMask := by
  unfold State.raiseCmdError; split <;> rfl
@[simp] theorem State.raiseCmdError_statusReg (b c : Word) :
    (s.raiseCmdError b c).statusReg = (s.statusReg ||| b) &&& statusMask := by
  simp [State.statusReg, BitVec.and_assoc]
@[simp] theorem State.raiseCmdError_errcmd (b c : Word) :
    (s.raiseCmdError b c).errcmd = if s.statusReg = 0 then c else s.errcmd := by
  unfold State.raiseCmdError; split <;> rfl
@[simp] theorem State.raiseCmdError_cfg (b c : Word) : (s.raiseCmdError b c).cfg = s.cfg := by
  unfold State.raiseCmdError; split <;> rfl
@[simp] theorem State.raiseCmdError_host (b c : Word) : (s.raiseCmdError b c).host = s.host := by
  unfold State.raiseCmdError; split <;> rfl
@[simp] theorem State.raiseCmdError_replies (b c : Word) : (s.raiseCmdError b c).replies = s.replies := by
  unfold State.raiseCmdError; split <;> rfl
@[simp] theorem State.raiseCmdError_draws (b c : Word) : (s.raiseCmdError b c).draws = s.draws := by
  unfold State.raiseCmdError; split <;> rfl

/-! coreReset -/
@[simp] theorem State.coreReset_omem : s.coreReset.omem = [] := rfl
@[simp] theorem State.coreReset_status : s.coreReset.status = 0 := rfl
@[simp] theorem State.coreReset_statusReg : s.coreReset.statusReg = 0 := by simp [State.statusReg]
@[simp] theorem State.coreReset_errcmd : s.coreReset.errcmd = 0 := rfl
@[simp] theorem State.coreReset_cfg : s.coreReset.cfg = s.cfg := rfl
@[simp] theorem State.coreReset_host : s.coreReset.host = s.host := rfl
@[simp] theorem State.coreReset_replies : s.coreReset.replies = s.replies := rfl
@[simp] theorem State.coreReset_draws : s.coreReset.draws = s.draws := rfl

/-! reply -/
@[simp] theorem State.reply_omem (v : Word) : (s.reply v).omem = s.omem := rfl
@[simp] theorem State.reply_status (v : Word) : (s.reply v).status = s.status := rfl
@[simp] theorem State.reply_statusReg (v : Word) : (s.reply v).statusReg = s.statusReg := rfl
@[simp] theorem State.reply_errcmd (v : Word) : (s.reply v).errcmd = s.errcmd := rfl
@[simp] theorem State.reply_cfg (v : Word) : (s.reply v).cfg = s.cfg := rfl
@[simp] theorem State.reply_host (v : Word) : (s.reply v).host = s.host := rfl
@[simp] theorem State.reply_replies (v : Word) : (s.reply v).replies = s.replies ++ [v] := rfl
@[simp] theorem State.reply_draws (v : Word) : (s.reply v).draws = s.draws := rfl

/-! the host's list -/
@[simp] theorem State.withHost_statusReg (h : List HostOp) : ({ s with host := h } : State).statusReg = s.statusReg := rfl
@[simp] theorem State.withOmem_statusReg (m : Memory) : ({ s with omem := m } : State).statusReg = s.statusReg := rfl
@[simp] theorem State.issueNext_host (c : Word) : (s.issueNext c).host = .issue c :: s.host := rfl
@[simp] theorem State.withProgram_host (cs : List Word) :
    (s.withProgram cs).host = cs.map .issue ++ s.host := rfl

/-! writeResult -/
@[simp] theorem State.writeResult_status (d : BufAddr) (b : Bool) (r : Nat) :
    (s.writeResult d b r).status = s.status := by
  unfold State.writeResult; split <;> rfl
@[simp] theorem State.writeResult_statusReg (d : BufAddr) (b : Bool) (r : Nat) :
    (s.writeResult d b r).statusReg = s.statusReg := by
  unfold State.writeResult; split <;> rfl
@[simp] theorem State.writeResult_errcmd (d : BufAddr) (b : Bool) (r : Nat) :
    (s.writeResult d b r).errcmd = s.errcmd := by
  unfold State.writeResult; split <;> rfl
@[simp] theorem State.writeResult_cfg (d : BufAddr) (b : Bool) (r : Nat) :
    (s.writeResult d b r).cfg = s.cfg := by
  unfold State.writeResult; split <;> rfl
@[simp] theorem State.writeResult_host (d : BufAddr) (b : Bool) (r : Nat) :
    (s.writeResult d b r).host = s.host := by
  unfold State.writeResult; split <;> rfl
@[simp] theorem State.writeResult_replies (d : BufAddr) (b : Bool) (r : Nat) :
    (s.writeResult d b r).replies = s.replies := by
  unfold State.writeResult; split <;> rfl
@[simp] theorem State.writeResult_draws (d : BufAddr) (b : Bool) (r : Nat) :
    (s.writeResult d b r).draws = if b then s.draws else s.draws + 1 := by
  unfold State.writeResult; cases b <;> rfl

end Sys2Proof.Machine
end

