-- ==== Sys2Proof/Laws/Memory.lean ====
section
/-! SUPPORT. OMEM: read after write, the canonical form, and elements. -/

namespace Sys2Proof.Machine

/-! ### One word -/

theorem Memory.read_write_same (m : Memory) (k : Nat) (v : Word) : (m.write k v).read k = some v := by
  induction m with
  | nil => simp [Memory.write, Memory.read]
  | cons p m ih =>
    obtain ⟨a, w⟩ := p
    simp only [Memory.write]
    split
    · simp [Memory.read]
    · split
      · simp [Memory.read]
      · rename_i h
        rw [Memory.read, if_neg (fun e => h e.symm), ih]

theorem Memory.read_write_other (m : Memory) {j k : Nat} (h : j ≠ k) (v : Word) :
    (m.write k v).read j = m.read j := by
  induction m with
  | nil => simp [Memory.write, Memory.read, Ne.symm h]
  | cons p m ih =>
    obtain ⟨a, w⟩ := p
    simp only [Memory.write]
    split
    · simp [Memory.read, Ne.symm h]
    · split
      · rename_i hk; subst hk; simp [Memory.read, Ne.symm h]
      · simp only [Memory.read, ih]

/-- Everything one write does to every read. -/
theorem Memory.read_write (m : Memory) (j k : Nat) (v : Word) :
    (m.write k v).read j = if j = k then some v else m.read j := by
  split
  · subst_vars; exact m.read_write_same _ _
  · exact m.read_write_other (by assumption) v

theorem Memory.risingFrom_mono {lo lo' hi : Nat} (h : lo' ≤ lo) {m : Memory}
    (hm : Memory.risingFrom lo hi m = true) : Memory.risingFrom lo' hi m = true := by
  cases m with
  | nil => rfl
  | cons p m =>
    obtain ⟨a, w⟩ := p
    simp only [Memory.risingFrom, Bool.and_eq_true, decide_eq_true_eq] at hm ⊢
    exact ⟨⟨by omega, hm.1.2⟩, hm.2⟩

theorem Memory.risingFrom_write {lo hi k : Nat} {m : Memory} (hlo : lo ≤ k) (hk : k < hi) (v : Word)
    (hm : Memory.risingFrom lo hi m = true) : Memory.risingFrom lo hi (m.write k v) = true := by
  induction m generalizing lo with
  | nil => simp [Memory.write, Memory.risingFrom, hlo, hk]
  | cons p m ih =>
    obtain ⟨a, w⟩ := p
    simp only [Memory.risingFrom, Bool.and_eq_true, decide_eq_true_eq] at hm
    simp only [Memory.write]
    split
    · simp only [Memory.risingFrom, Bool.and_eq_true, decide_eq_true_eq]
      exact ⟨⟨hlo, hk⟩, ⟨by omega, hm.1.2⟩, hm.2⟩
    · split
      · subst_vars
        simp only [Memory.risingFrom, Bool.and_eq_true, decide_eq_true_eq]
        exact ⟨⟨hlo, hk⟩, hm.2⟩
      · simp only [Memory.risingFrom, Bool.and_eq_true, decide_eq_true_eq]
        exact ⟨hm.1, ih (by omega) hm.2⟩

/-- A write within bounds keeps the canonical form. -/
theorem Memory.wf_write {n k : Nat} {m : Memory} (hk : k < n) (v : Word) (hm : Memory.wf n m = true) :
    Memory.wf n (m.write k v) = true :=
  Memory.risingFrom_write (Nat.zero_le _) hk v hm

/-- An index outside the bounds of a canonical memory holds no value. -/
theorem Memory.read_risingFrom {lo hi k : Nat} {m : Memory} (hm : Memory.risingFrom lo hi m = true)
    (hk : k < lo ∨ hi ≤ k) : m.read k = none := by
  induction m generalizing lo with
  | nil => rfl
  | cons p m ih =>
    obtain ⟨a, w⟩ := p
    simp only [Memory.risingFrom, Bool.and_eq_true, decide_eq_true_eq] at hm
    rw [Memory.read, if_neg (by omega)]
    exact ih hm.2 (by omega)

/-- Two canonical memories that read alike everywhere are equal. -/
theorem Memory.ext_of_risingFrom {lo hi : Nat} {m m' : Memory} (hm : Memory.risingFrom lo hi m = true)
    (hm' : Memory.risingFrom lo hi m' = true) (h : ∀ k, m.read k = m'.read k) : m = m' := by
  induction m generalizing lo m' with
  | nil =>
    cases m' with
    | nil => rfl
    | cons p m' => simpa [Memory.read] using h p.1
  | cons p m ih =>
    obtain ⟨a, w⟩ := p
    cases m' with
    | nil => simpa [Memory.read] using h a
    | cons p' m' =>
      obtain ⟨a', w'⟩ := p'
      simp only [Memory.risingFrom, Bool.and_eq_true, decide_eq_true_eq] at hm hm'
      have haa : a = a' := by
        rcases Nat.lt_trichotomy a a' with hlt | heq | hgt
        · have := h a
          rw [Memory.read, if_pos rfl, Memory.read, if_neg (by omega),
            Memory.read_risingFrom hm'.2 (by omega)] at this
          simp at this
        · exact heq
        · have := h a'
          rw [Memory.read, if_neg (by omega), Memory.read_risingFrom hm.2 (by omega), Memory.read,
            if_pos rfl] at this
          simp at this
      subst haa
      have hw := h a
      simp only [Memory.read, if_true, Option.some.injEq] at hw
      subst hw
      congr 1
      refine ih hm.2 hm'.2 fun k => ?_
      by_cases hk : a = k
      · subst hk
        rw [Memory.read_risingFrom hm.2 (by omega), Memory.read_risingFrom hm'.2 (by omega)]
      · simpa [Memory.read, hk] using h k

/-! ### Runs of words -/

theorem Memory.read_writeWords (ws : List Word) (m : Memory) (a k : Nat) :
    (m.writeWords a ws).read k = if a ≤ k ∧ k < a + ws.length then ws[k - a]? else m.read k := by
  induction ws generalizing m a with
  | nil => simp [Memory.writeWords, show ¬ (a ≤ k ∧ k < a) by omega]
  | cons w ws ih =>
    rw [Memory.writeWords, ih, Memory.read_write, List.length_cons]
    by_cases h1 : k = a
    · subst h1; simp
    · by_cases h2 : a + 1 ≤ k ∧ k < a + 1 + ws.length
      · rw [if_pos h2, if_pos (by omega), show k - a = (k - (a + 1)) + 1 by omega, List.getElem?_cons_succ]
      · rw [if_neg h2, if_neg h1, if_neg (by omega)]

/-- OMEM right after power-on is in canonical form. -/
theorem State.powerOn_wf (c : Config) : Memory.wf c.omemWords (State.powerOn c).omem = true := rfl

theorem Memory.wf_writeWords {n a : Nat} {m : Memory} (ws : List Word) (ha : a + ws.length ≤ n)
    (hm : Memory.wf n m = true) : Memory.wf n (m.writeWords a ws) = true := by
  induction ws generalizing m a with
  | nil => exact hm
  | cons w ws ih =>
    rw [List.length_cons] at ha
    exact ih (by omega) (Memory.wf_write (by omega) w hm)

/-- A run of words reads whole exactly when each of them holds a value. -/
theorem Memory.readWords_ok_iff (m : Memory) (a n : Nat) (ws : List Word) :
    m.readWords a n = .ok ws ↔ ws.length = n ∧ ∀ i < n, m.read (a + i) = ws[i]? := by
  induction n generalizing a ws with
  | zero => cases ws <;> simp [Memory.readWords]
  | succ n ih =>
    rw [Memory.readWords]
    cases h : m.read a with
    | none =>
      simp only [reduceCtorEq, false_iff, not_and]
      intro hl hall
      have := hall 0 (by omega)
      rw [Nat.add_zero, h] at this
      cases ws <;> simp at this hl
    | some w =>
      simp only
      cases ws with
      | nil => cases m.readWords (a + 1) n <;> simp [Except.map]
      | cons w' ws =>
        have key : (m.readWords (a + 1) n).map (w :: ·) = .ok (w' :: ws) ↔
            w = w' ∧ m.readWords (a + 1) n = .ok ws := by
          cases m.readWords (a + 1) n <;> simp [Except.map]
        rw [key, ih, List.length_cons]
        constructor
        · rintro ⟨rfl, hl, hall⟩
          refine ⟨by omega, fun i hi => ?_⟩
          cases i with
          | zero => simp [h]
          | succ i =>
            rw [show a + (i + 1) = a + 1 + i by omega, hall i (by omega), List.getElem?_cons_succ]
        · rintro ⟨hl, hall⟩
          have h0 := hall 0 (by omega)
          simp only [Nat.add_zero, h, List.getElem?_cons_zero, Option.some.injEq] at h0
          refine ⟨h0, by omega, fun i hi => ?_⟩
          have := hall (i + 1) (by omega)
          rwa [show a + (i + 1) = a + 1 + i by omega, List.getElem?_cons_succ] at this

/-- A run of words fails at its first word that holds no value. -/
theorem Memory.readWords_error_iff (m : Memory) (a n k : Nat) :
    m.readWords a n = .error k ↔
      ∃ i < n, k = a + i ∧ m.read k = none ∧ ∀ j < i, m.read (a + j) ≠ none := by
  induction n generalizing a with
  | zero => simp [Memory.readWords]
  | succ n ih =>
    rw [Memory.readWords]
    cases h : m.read a with
    | none =>
      simp only [Except.error.injEq]
      constructor
      · rintro rfl
        exact ⟨0, by omega, by omega, h, by omega⟩
      · rintro ⟨i, hi, rfl, hn, hall⟩
        rcases Nat.eq_zero_or_pos i with rfl | hp
        · omega
        · exact absurd h (by simpa using hall 0 hp)
    | some w =>
      have key : (m.readWords (a + 1) n).map (w :: ·) = .error k ↔ m.readWords (a + 1) n = .error k := by
        cases m.readWords (a + 1) n <;> simp [Except.map]
      simp only [key, ih]
      constructor
      · rintro ⟨i, hi, rfl, hn, hall⟩
        refine ⟨i + 1, by omega, by omega, hn, fun j hj => ?_⟩
        cases j with
        | zero => simp [h]
        | succ j => simpa [show a + (j + 1) = a + 1 + j by omega] using hall j (by omega)
      · rintro ⟨i, hi, rfl, hn, hall⟩
        cases i with
        | zero => simp [h] at hn
        | succ i =>
          refine ⟨i, by omega, by omega, hn, fun j hj => ?_⟩
          simpa [show a + (j + 1) = a + 1 + j by omega] using hall (j + 1) (by omega)

/-! ### Elements -/

/-- Latching a buffer gives exactly the element it holds (20_memory.md R41, R42). -/
theorem State.latch_ok_iff (s : State) (b : BufAddr) (x : Nat) : s.latch b = .ok x ↔ s.Holds b x := by
  unfold State.latch State.memRead
  constructor
  · cases h : s.omem.readWords b.toNat 6 with
    | error k => simp
    | ok ws =>
      intro hx
      simp only [Except.ok.injEq] at hx
      subst hx
      rw [Memory.readWords_ok_iff] at h
      refine ⟨by simpa [h.1] using val_lt ws, fun i hi => ?_⟩
      rw [h.2 i hi, ← words_getElem? hi, ← h.1, words_val]
  · rintro ⟨hx, hall⟩
    have : s.omem.readWords b.toNat 6 = .ok (words 6 x) := by
      rw [Memory.readWords_ok_iff]
      exact ⟨words_length _ _, fun i hi => by rw [hall i hi, words_getElem? hi]⟩
    rw [this]
    simp [val_words_of_lt (n := 6) hx]

theorem State.latch_of_holds {s : State} {b : BufAddr} {x : Nat} (h : s.Holds b x) : s.latch b = .ok x :=
  (s.latch_ok_iff b x).2 h

/-- A buffer holds at most one element. -/
theorem State.Holds.unique {s : State} {b : BufAddr} {x y : Nat} (hx : s.Holds b x) (hy : s.Holds b y) : x = y := by
  have := (State.latch_of_holds hx).symm.trans (State.latch_of_holds hy)
  simpa using this

/-- A latch fails at the buffer's first word that holds no value, by the name UninitRead (10_state.md R23). -/
theorem State.latch_error_iff (s : State) (b : BufAddr) (f : Fault) :
    s.latch b = .error f ↔ ∃ i < 6, f = .uninitRead (b.toNat + i) ∧ s.omem.read (b.toNat + i) = none ∧
      ∀ j < i, s.omem.read (b.toNat + j) ≠ none := by
  unfold State.latch State.memRead
  cases h : s.omem.readWords b.toNat 6 with
  | ok ws =>
    simp only [reduceCtorEq, false_iff, not_exists, not_and]
    intro i hi _ hn
    rw [Memory.readWords_ok_iff] at h
    rw [h.2 i hi, List.getElem?_eq_none_iff] at hn
    omega
  | error k =>
    simp only [Except.error.injEq]
    have h' := (Memory.readWords_error_iff _ _ _ _).1 h
    constructor
    · rintro rfl
      obtain ⟨i, hi, rfl, hn, hall⟩ := h'
      exact ⟨i, hi, rfl, hn, hall⟩
    · rintro ⟨i, hi, rfl, hn, hall⟩
      have := (Memory.readWords_error_iff s.omem b.toNat 6 (b.toNat + i)).2 ⟨i, hi, rfl, hn, hall⟩
      rw [h] at this
      simp only [Except.error.injEq] at this
      rw [this]

/-- What a write of an element does to every read (00_scope.md R16). -/
theorem State.memWrite_read (s : State) (b : BufAddr) (v k : Nat) :
    (s.memWrite b.toNat 6 v).omem.read k =
      if InBuf b k then some (BitVec.ofNat 64 (v / 2 ^ (64 * (k - b.toNat)))) else s.omem.read k := by
  rw [State.memWrite_omem, Memory.read_writeWords, words_length]
  split
  · rw [words_getElem? (by omega)]
  · rfl

theorem State.memWrite_holds (s : State) (b : BufAddr) {v : Nat} (hv : v < 2 ^ 384) :
    (s.memWrite b.toNat 6 v).Holds b v := by
  refine ⟨hv, fun i hi => ?_⟩
  rw [State.memWrite_read, if_pos (by constructor <;> omega)]
  simp

theorem State.memWrite_sameOutside (s : State) (b : BufAddr) (v : Nat) :
    SameOutside b s (s.memWrite b.toNat 6 v) := by
  intro k hk
  rw [State.memWrite_read, if_neg hk]

/-- An element of a buffer that does not overlap the written one is kept. -/
theorem State.Holds.of_sameOutside {s t : State} {b d : BufAddr} {x : Nat} (h : SameOutside d s t)
    (hd : ∀ i < 6, ¬ InBuf d (b.toNat + i)) (hx : s.Holds b x) : t.Holds b x :=
  ⟨hx.1, fun i hi => by rw [h _ (hd i hi), hx.2 i hi]⟩

end Sys2Proof.Machine
end

