-- ==== Sys2Proof/Laws/MontMul.lean ====
section
/-! SUPPORT. What Montgomery multiplication computes, in every tier (41_montmul.md R103, R105, R106). -/

namespace Sys2Proof.Machine

/-! ### Rows (41_montmul.md R101) -/

theorem mulAddCarry_spec (acc x y : Word) (c : Nat) :
    (mulAddCarry acc x y c).1.toNat + 2 ^ 64 * (mulAddCarry acc x y c).2 = acc.toNat + x.toNat * y.toNat + c := by
  simp only [mulAddCarry, BitVec.toNat_ofNat]
  exact Nat.mod_add_div _ _

@[simp] theorem mulAddRow_length (acc xs : List Word) (y : Word) (c : Nat) :
    (mulAddRow acc xs y c).length = acc.length := by
  induction acc generalizing xs c with
  | nil => rfl
  | cons t acc ih => cases xs <;> simp [mulAddRow, ih]

/-- A row adds exactly, where the sum fits the row and its overflow word. -/
theorem val_mulAddRow {acc xs : List Word} {y : Word} {c : Nat} (hl : xs.length < acc.length)
    (h : val acc + val xs * y.toNat + c < 2 ^ (64 * (xs.length + 1))) :
    val (mulAddRow acc xs y c) = val acc + val xs * y.toNat + c := by
  induction acc generalizing xs c with
  | nil => simp at hl
  | cons t acc ih =>
    cases xs with
    | nil =>
      simp only [val, List.length_nil, Nat.zero_mul, Nat.add_zero, Nat.zero_add, Nat.mul_one] at h
      simp only [mulAddRow, val, BitVec.toNat_ofNat, Nat.zero_mul]
      omega
    | cons x xs =>
      have h1 := mulAddCarry_spec t x y c
      simp only [val, List.length_cons, Nat.mul_succ _ (xs.length + 1), Nat.add_comm _ 64,
        pow_add 2 64] at h
      have h2 : val acc + val xs * y.toNat + (mulAddCarry t x y c).2 < 2 ^ (64 * (xs.length + 1)) := by
        by_contra hge
        have : 2 ^ 64 * 2 ^ (64 * (xs.length + 1)) ≤
            2 ^ 64 * (val acc + val xs * y.toNat + (mulAddCarry t x y c).2) :=
          Nat.mul_le_mul_left _ (by omega)
        nlinarith
      have h3 := ih (xs := xs) (c := (mulAddCarry t x y c).2) (by simpa using hl) h2
      simp only [mulAddRow, val, h3]
      linear_combination h1

theorem val_tail (l : List Word) : val l.tail = val l / 2 ^ 64 := by
  cases l with
  | nil => rfl
  | cons w l => have := w.isLt; simp only [List.tail_cons, val]; omega

theorem headD_toNat (l : List Word) : (l.headD 0).toNat = val l % 2 ^ 64 := by
  cases l with
  | nil => rfl
  | cons w l => have := w.isLt; simp only [List.headD_cons, val]; omega

/-! ### The round on values (41_montmul.md R103) -/

/-- N·N′ ≡ −1 modulo 2^64 (10_state.md R28). -/
theorem n_mul_nprime : (Rom.n * Rom.nprime.toNat + 1) % 2 ^ 64 = 0 := by decide +kernel

theorem valueDigit_lt (u : Nat) : valueDigit u < 2 ^ 64 := Nat.mod_lt _ (by decide)

/-- The quotient digit clears the low word. -/
theorem valueDigit_clears (u : Nat) : (u + valueDigit u * Rom.n) % 2 ^ 64 = 0 := by
  have h : u + u * Rom.nprime.toNat * Rom.n ≡ 0 [MOD 2 ^ 64] := by
    have : u + u * Rom.nprime.toNat * Rom.n = u * (Rom.n * Rom.nprime.toNat + 1) := by ring
    rw [this]
    exact (Nat.ModEq.mul_left u (show Rom.n * Rom.nprime.toNat + 1 ≡ 0 [MOD 2 ^ 64] from n_mul_nprime)).trans
      (by simp [Nat.ModEq])
  have hd : valueDigit u ≡ u * Rom.nprime.toNat [MOD 2 ^ 64] :=
    (Nat.mod_modEq _ _).trans ((Nat.mod_modEq _ _).mul_right _)
  exact ((hd.mul_right _).add_left u).trans h

/-- The division of 41_montmul.md R103 is exact. -/
theorem valueRound_exact (a t : Nat) (b : Word) :
    2 ^ 64 * valueRound a t b = t + a * b.toNat + valueDigit (t + a * b.toNat) * Rom.n :=
  Nat.mul_div_cancel' (Nat.dvd_of_mod_eq_zero (valueDigit_clears _))

theorem valueRound_sum_lt {a t : Nat} (ha : a < Rom.n) (ht : t < 2 * Rom.n) (b : Word) :
    t + a * b.toNat + valueDigit (t + a * b.toNat) * Rom.n < 2 ^ 64 * (2 * Rom.n) := by
  have hm := valueDigit_lt (t + a * b.toNat)
  generalize valueDigit (t + a * b.toNat) = m at *
  have hb := b.isLt
  generalize b.toNat = b at *
  have h1 : a * b ≤ (Rom.n - 1) * (2 ^ 64 - 1) := Nat.mul_le_mul (by omega) (by omega)
  have h2 : m * Rom.n ≤ (2 ^ 64 - 1) * Rom.n := Nat.mul_le_mul_right _ (by omega)
  have hn : 0 < Rom.n := by decide +kernel
  omega

/-- 41_montmul.md R102 (e): every T_i is below 2N. -/
theorem valueRound_lt {a t : Nat} (ha : a < Rom.n) (ht : t < 2 * Rom.n) (b : Word) :
    valueRound a t b < 2 * Rom.n := by
  have h1 := valueRound_exact a t b
  have h2 := valueRound_sum_lt ha ht b
  omega

theorem valueRounds_lt {a t : Nat} (ha : a < Rom.n) (ht : t < 2 * Rom.n) (lb : List Word) :
    lb.foldl (valueRound a) t < 2 * Rom.n := by
  induction lb generalizing t with
  | nil => exact ht
  | cons b lb ih => exact ih (valueRound_lt ha ht b)

/-- T·2^(64·k) = t + a·b + M·N with M below 2^(64·k) (41_montmul.md R103). -/
theorem valueRounds_eq (a t : Nat) (lb : List Word) :
    ∃ m, m < 2 ^ (64 * lb.length) ∧
      2 ^ (64 * lb.length) * lb.foldl (valueRound a) t = t + a * val lb + m * Rom.n := by
  induction lb generalizing t with
  | nil => exact ⟨0, by simp, by simp [val]⟩
  | cons b lb ih =>
    obtain ⟨m, hm, h⟩ := ih (valueRound a t b)
    have h1 := valueRound_exact a t b
    have hd := valueDigit_lt (t + a * b.toNat)
    refine ⟨valueDigit (t + a * b.toNat) + 2 ^ 64 * m, ?_, ?_⟩
    · rw [List.length_cons, Nat.mul_succ, Nat.add_comm, pow_add]
      nlinarith
    · rw [List.length_cons, Nat.mul_succ, Nat.add_comm (64 * _), pow_add, List.foldl_cons, val]
      linear_combination 2 ^ 64 * h + h1

/-! ### The round on words: one window, its low word dropped -/

/-- One round on the words from the round's offset up. -/
def windowRound (la w : List Word) (b : Word) : List Word :=
  let r := mulAddRow w la b 0
  (mulAddRow r (words 6 Rom.n) (r.headD 0 * Rom.nprime) 0).tail

theorem windowRound_spec {la w : List Word} (hla : la.length = 6) (hw : 7 ≤ w.length)
    (ha : val la < Rom.n) (ht : val w < 2 * Rom.n) (b : Word) :
    (windowRound la w b).length = w.length - 1 ∧
      val (windowRound la w b) = valueRound (val la) (val w) b := by
  have hn : 2 ^ 64 * (2 * Rom.n) < 2 ^ (64 * 7) := by decide +kernel
  have hsum := valueRound_sum_lt ha ht b
  have h1 : val (mulAddRow w la b 0) = val w + val la * b.toNat := by
    rw [val_mulAddRow (by omega) (by rw [hla]; omega), Nat.add_zero]
  have hd : ((mulAddRow w la b 0).headD 0 * Rom.nprime).toNat = valueDigit (val w + val la * b.toNat) := by
    rw [BitVec.toNat_mul, headD_toNat, h1, valueDigit]
  have h2 : val (mulAddRow (mulAddRow w la b 0) (words 6 Rom.n) ((mulAddRow w la b 0).headD 0 * Rom.nprime) 0) =
      val w + val la * b.toNat + valueDigit (val w + val la * b.toNat) * Rom.n := by
    rw [val_mulAddRow (by simp; omega) (by
      rw [words_length, h1, hd, val_words_n, Nat.mul_comm Rom.n]; omega), h1, hd, val_words_n]
    ring
  refine ⟨by simp [windowRound], ?_⟩
  simp only [windowRound]
  rw [val_tail, h2, valueRound]

theorem windowRounds_spec {la : List Word} (hla : la.length = 6) (ha : val la < Rom.n) (lb : List Word)
    {w : List Word} (hw : lb.length + 6 ≤ w.length) (ht : val w < 2 * Rom.n) :
    (lb.foldl (windowRound la) w).length = w.length - lb.length ∧
      val (lb.foldl (windowRound la) w) = lb.foldl (valueRound (val la)) (val w) := by
  induction lb generalizing w with
  | nil => simp
  | cons b lb ih =>
    rw [List.length_cons] at hw
    obtain ⟨hl, hv⟩ := windowRound_spec hla (by omega) ha ht b
    have ht' : val (windowRound la w b) < 2 * Rom.n := hv ▸ valueRound_lt ha ht b
    obtain ⟨h1, h2⟩ := ih (w := windowRound la w b) (by omega) ht'
    rw [List.foldl_cons, List.foldl_cons, List.length_cons, h1, h2, hv]
    exact ⟨by omega, rfl⟩

/-- From the twelve zero words to the value of the reduced window. -/
theorem val_condSubN_windowRounds {a b : Nat} (ha : a < Rom.n) :
    val (condSubN ((words 6 b).foldl (windowRound (words 6 a)) (List.replicate 12 0))) =
      valueRounds a (words 6 b) % Rom.n := by
  have hn := n_lt
  have hva : val (words 6 a) = a := val_words_of_lt (n := 6) (by omega)
  obtain ⟨hl, hv⟩ := windowRounds_spec (la := words 6 a) (by simp) (by rw [hva]; exact ha) (words 6 b)
    (w := List.replicate 12 0) (by simp) (by rw [val_replicate_zero]; omega)
  rw [hva, val_replicate_zero] at hv
  rw [val_condSubN_mod (by simpa using hl) (by rw [hv]; exact valueRounds_lt ha (by omega) _), hv, valueRounds]

/-! ### The reference tier -/

theorem rowAt_take {i : Nat} {acc : List Word} (hi : i ≤ acc.length) (xs : List Word) (y : Word) :
    (rowAt i acc xs y).take i = acc.take i := by
  rw [rowAt, List.take_append_of_le_length (by simp [hi]), List.take_take, Nat.min_self]

theorem rowAt_drop {i : Nat} {acc : List Word} (hi : i ≤ acc.length) (xs : List Word) (y : Word) :
    (rowAt i acc xs y).drop i = mulAddRow (acc.drop i) xs y 0 := by
  rw [rowAt, List.drop_append_of_le_length (by simp [hi])]
  simp

@[simp] theorem rowAt_length (i : Nat) (acc xs : List Word) (y : Word) : (rowAt i acc xs y).length = acc.length := by
  simp [rowAt]; omega

@[simp] theorem ciosRound_length (la : List Word) (i : Nat) (acc : List Word) (b : Word) :
    (ciosRound la i acc b).length = acc.length := by
  simp [ciosRound]

theorem ciosRound_drop {i : Nat} {acc : List Word} (hi : i ≤ acc.length) (la : List Word) (b : Word) :
    (ciosRound la i acc b).drop (i + 1) = windowRound la (acc.drop i) b := by
  have hq : quotientDigit i (rowAt i acc la b) = (mulAddRow (acc.drop i) la b 0).headD 0 * Rom.nprime := by
    rw [quotientDigit, ← rowAt_drop hi]
    congr 1
    simp [List.headD_eq_head?_getD, List.head?_drop, List.getD_eq_getElem?_getD]
  simp only [ciosRound, windowRound]
  rw [← List.tail_drop, rowAt_drop (by simp [hi]), rowAt_drop hi, hq]

theorem ciosRounds_drop (la lb : List Word) {i : Nat} {acc : List Word} (hi : i + lb.length ≤ acc.length) :
    (ciosRounds la i acc lb).drop (i + lb.length) = lb.foldl (windowRound la) (acc.drop i) := by
  induction lb generalizing i acc with
  | nil => rfl
  | cons b lb ih =>
    rw [List.length_cons] at hi ⊢
    rw [ciosRounds, List.foldl_cons, ← ciosRound_drop (by omega) la b, ← ih (by simp; omega)]
    congr 1; omega

theorem ciosReference_eq (a b : Nat) :
    ciosReference a b =
      val (condSubN ((words 6 b).foldl (windowRound (words 6 a)) (List.replicate 12 0))) := by
  have := ciosRounds_drop (words 6 a) (words 6 b) (i := 0) (acc := List.replicate 12 0) (by simp)
  rw [words_length, Nat.zero_add, List.drop_zero] at this
  rw [ciosReference, ciosAcc, this]

/-! ### The intrinsic tier -/

theorem adcPrim_spec (x y : Word) (c : Bool) :
    (adcPrim x y c).1.toNat + 2 ^ 64 * (adcPrim x y c).2.toNat = x.toNat + y.toNat + c.toNat := by
  have hx := x.isLt
  have hy := y.isLt
  have hc : ((BitVec.ofBool c).setWidth 64).toNat = c.toNat := by cases c <;> rfl
  have hc1 : c.toNat ≤ 1 := Bool.toNat_le c
  simp only [adcPrim, BitVec.toNat_add, hc]
  by_cases h : 2 ^ 64 ≤ x.toNat + y.toNat + c.toNat
  · rw [decide_eq_true h, Bool.toNat_true]; omega
  · rw [decide_eq_false h, Bool.toNat_false]; omega

theorem intrinsicMulAdd_eq (acc x y c : Word) :
    (intrinsicMulAdd acc x y c).1 = (mulAddCarry acc x y c.toNat).1 ∧
      (intrinsicMulAdd acc x y c).2.toNat = (mulAddCarry acc x y c.toNat).2 := by
  have hp : x.toNat * y.toNat ≤ (2 ^ 64 - 1) * (2 ^ 64 - 1) :=
    Nat.mul_le_mul (by have := x.isLt; omega) (by have := y.isLt; omega)
  have h1 := adcPrim_spec (mulPrim x y).2 acc false
  have h2 := adcPrim_spec (mulPrim x y).1 0 (adcPrim (mulPrim x y).2 acc false).2
  have h3 := adcPrim_spec (adcPrim (mulPrim x y).2 acc false).1 c false
  have h4 := adcPrim_spec (adcPrim (mulPrim x y).1 0 (adcPrim (mulPrim x y).2 acc false).2).1 0
    (adcPrim (adcPrim (mulPrim x y).2 acc false).1 c false).2
  have hlo : (mulPrim x y).2.toNat = x.toNat * y.toNat % 2 ^ 64 := by simp [mulPrim]
  have hhi : (mulPrim x y).1.toNat = x.toNat * y.toNat / 2 ^ 64 := by
    simp only [mulPrim, BitVec.toNat_ofNat]
    exact Nat.mod_eq_of_lt (by omega)
  have hz : (0 : Word).toNat = 0 := rfl
  have hacc := acc.isLt
  have hc := c.isLt
  have b1 := Bool.toNat_le (adcPrim (mulPrim x y).2 acc false).2
  have b2 := Bool.toNat_le (adcPrim (adcPrim (mulPrim x y).2 acc false).1 c false).2
  have l1 := (intrinsicMulAdd acc x y c).1.isLt
  have l2 := (intrinsicMulAdd acc x y c).2.isLt
  simp only [Bool.toNat_false, hz, hlo, hhi] at h1 h2 h3 h4
  have key : (intrinsicMulAdd acc x y c).1.toNat + 2 ^ 64 * (intrinsicMulAdd acc x y c).2.toNat =
      acc.toNat + x.toNat * y.toNat + c.toNat := by
    simp only [intrinsicMulAdd]
    generalize x.toNat * y.toNat = p at *
    omega
  have spec := mulAddCarry_spec acc x y c.toNat
  have l3 := (mulAddCarry acc x y c.toNat).1.isLt
  exact ⟨BitVec.eq_of_toNat_eq (by omega), by omega⟩

theorem intrinsicRow_eq (acc xs : List Word) (y c : Word) :
    intrinsicRow acc xs y c = mulAddRow acc xs y c.toNat := by
  induction acc generalizing xs c with
  | nil => rfl
  | cons t acc ih =>
    cases xs with
    | nil =>
      have h := adcPrim_spec t c false
      rw [Bool.toNat_false, Nat.add_zero] at h
      have hlt := (adcPrim t c false).1.isLt
      rw [intrinsicRow, mulAddRow]
      congr 1
      apply BitVec.eq_of_toNat_eq
      rw [BitVec.toNat_ofNat]
      omega
    | cons x xs =>
      obtain ⟨h1, h2⟩ := intrinsicMulAdd_eq t x y c
      simp only [intrinsicRow, mulAddRow]
      rw [ih, h1, h2]

theorem intrinsicRounds_eq (la acc lb : List Word) :
    intrinsicRounds la acc lb = lb.foldl (windowRound la) acc := by
  induction lb generalizing acc with
  | nil => rfl
  | cons b lb ih =>
    rw [intrinsicRounds, ih, List.foldl_cons]
    simp only [windowRound, intrinsicRow_eq]
    rfl

theorem sbbPrim_eq (x y : Word) (c : Bool) :
    (sbbPrim x y c).1 = (subBorrow x y c.toNat).1 ∧ (sbbPrim x y c).2.toNat = (subBorrow x y c.toNat).2 := by
  have hx := x.isLt
  have hy := y.isLt
  have hc : ((BitVec.ofBool c).setWidth 64).toNat = c.toNat := by cases c <;> rfl
  have hc1 : c.toNat ≤ 1 := Bool.toNat_le c
  constructor
  · apply BitVec.eq_of_toNat_eq
    simp only [sbbPrim, subBorrow, BitVec.toNat_sub, BitVec.toNat_ofInt, hc]
    omega
  · simp only [sbbPrim, subBorrow]
    by_cases h : x.toNat < y.toNat + c.toNat
    · rw [decide_eq_true h, if_pos (by omega), Bool.toNat_true]
    · rw [decide_eq_false h, if_neg (by omega), Bool.toNat_false]

theorem intrinsicSubChain_eq (xs ys : List Word) (c : Bool) :
    (intrinsicSubChain xs ys c).1 = (subChain xs ys c.toNat).1 ∧
      (intrinsicSubChain xs ys c).2.toNat = (subChain xs ys c.toNat).2 := by
  induction xs generalizing ys c with
  | nil => exact ⟨rfl, rfl⟩
  | cons x xs ih =>
    cases ys with
    | nil => exact ⟨rfl, rfl⟩
    | cons y ys =>
      obtain ⟨h1, h2⟩ := sbbPrim_eq x y c
      obtain ⟨h3, h4⟩ := ih ys (sbbPrim x y c).2
      simp only [intrinsicSubChain, subChain]
      rw [h1, h3, h4, h2]
      exact ⟨rfl, rfl⟩

theorem intrinsicCondSubN_eq (s : List Word) : intrinsicCondSubN s = condSubN s := by
  obtain ⟨h1, h2⟩ := intrinsicSubChain_eq s (words 6 Rom.n) false
  simp only [intrinsicCondSubN, condSubN]
  rw [h1]
  congr 2
  rw [Bool.toNat_false] at h2
  rw [← h2, maskOf]
  cases (intrinsicSubChain s (words 6 Rom.n) false).2 <;> rfl

/-- The intrinsic tier is the reference tier, on every operand. -/
theorem ciosIntrinsic_eq (a b : Nat) : ciosIntrinsic a b = ciosReference a b := by
  rw [ciosIntrinsic, intrinsicCondSubN_eq, intrinsicRounds_eq, ciosReference_eq]

/-! ### The flattened tier -/

/-- The window as a list. -/
def Window.toList (t : Window) : List Word := [t.w0, t.w1, t.w2, t.w3, t.w4, t.w5, t.w6]

theorem wideMulAdd_eq (acc x y c : Word) :
    loWord (wideMulAdd acc x y c) = (mulAddCarry acc x y c.toNat).1 ∧
      (hiWord (wideMulAdd acc x y c)).toNat = (mulAddCarry acc x y c.toNat).2 := by
  have hacc := acc.isLt
  have hx := x.isLt
  have hy := y.isLt
  have hc := c.isLt
  have hp : x.toNat * y.toNat ≤ (2 ^ 64 - 1) * (2 ^ 64 - 1) := Nat.mul_le_mul (by omega) (by omega)
  have hw : (wideMulAdd acc x y c).toNat = acc.toNat + x.toNat * y.toNat + c.toNat := by
    simp only [wideMulAdd, BitVec.toNat_add, BitVec.toNat_mul, BitVec.toNat_setWidth]
    rw [Nat.mod_eq_of_lt (a := acc.toNat) (by omega), Nat.mod_eq_of_lt (a := x.toNat) (by omega),
      Nat.mod_eq_of_lt (a := y.toNat) (by omega), Nat.mod_eq_of_lt (a := c.toNat) (by omega)]
    generalize x.toNat * y.toNat = p at *
    omega
  constructor
  · apply BitVec.eq_of_toNat_eq
    simp only [loWord, mulAddCarry, BitVec.extractLsb'_toNat, hw, Nat.shiftRight_zero, BitVec.toNat_ofNat]
  · simp only [hiWord, mulAddCarry, BitVec.extractLsb'_toNat, hw, Nat.shiftRight_eq_div_pow]
    generalize x.toNat * y.toNat = p at *
    omega

theorem flatRow_toList (t : Window) (x0 x1 x2 x3 x4 x5 y : Word) :
    (flatRow t x0 x1 x2 x3 x4 x5 y).toList = mulAddRow t.toList [x0, x1, x2, x3, x4, x5] y 0 := by
  have hz : (0 : Word).toNat = 0 := rfl
  have hlast : ∀ u v : Word, u + v = BitVec.ofNat 64 (u.toNat + v.toNat) := fun u v => by
    apply BitVec.eq_of_toNat_eq
    rw [BitVec.toNat_add, BitVec.toNat_ofNat]
  simp only [flatRow, Window.toList, mulAddRow, hlast, (wideMulAdd_eq _ _ _ _).1, (wideMulAdd_eq _ _ _ _).2, hz]

theorem words_n_eq : words 6 Rom.n = [0xb9feffffffffaaab#64, 0x1eabfffeb153ffff#64, 0x6730d2a0f6b0f624#64,
    0x64774b84f38512bf#64, 0x4b1ba7b6434bacd7#64, 0x1a0111ea397fe69a#64] := by decide +kernel

theorem words_eq_wordAt (v : Nat) :
    words 6 v = [wordAt v 0, wordAt v 1, wordAt v 2, wordAt v 3, wordAt v 4, wordAt v 5] := by
  simp only [words, wordAt, Nat.div_div_eq_div_mul, ← pow_add, Nat.reduceAdd, Nat.reduceMul, pow_zero, Nat.div_one]

theorem Window.shift_toList (t : Window) : t.shift.toList = t.toList.tail ++ [0] := rfl

theorem flatRound_toList (x0 x1 x2 x3 x4 x5 : Word) (t : Window) (y : Word) :
    (flatRound x0 x1 x2 x3 x4 x5 t y).toList = windowRound [x0, x1, x2, x3, x4, x5] t.toList y ++ [0] := by
  have hw0 : ∀ u : Window, u.toList.headD 0 = u.w0 := fun _ => rfl
  simp only [flatRound, windowRound]
  rw [Window.shift_toList, flatRow_toList, ← words_n_eq, ← flatRow_toList, hw0]

theorem flatRound_spec {a : Nat} (ha : a < Rom.n) {t : Window} (ht : val t.toList < 2 * Rom.n) (y : Word) :
    val (flatRound (wordAt a 0) (wordAt a 1) (wordAt a 2) (wordAt a 3) (wordAt a 4) (wordAt a 5) t y).toList =
        valueRound a (val t.toList) y := by
  have hn := n_lt
  have hva : val (words 6 a) = a := val_words_of_lt (n := 6) (by omega)
  obtain ⟨-, h⟩ := windowRound_spec (la := words 6 a) (w := t.toList) (by simp) (by simp [Window.toList])
    (by rw [hva]; exact ha) ht y
  rw [flatRound_toList, ← words_eq_wordAt, val_append, h, hva]
  simp [val]

theorem flatRound_w6 (x0 x1 x2 x3 x4 x5 : Word) (t : Window) (y : Word) :
    (flatRound x0 x1 x2 x3 x4 x5 t y).w6 = 0 := rfl

theorem Window.finish_eq {t : Window} (h : t.w6 = 0) (ht : val t.toList < 2 * Rom.n) :
    t.finish = val t.toList % Rom.n := by
  have hl : val [t.w0, t.w1, t.w2, t.w3, t.w4, t.w5] = val t.toList := by
    rw [show t.toList = [t.w0, t.w1, t.w2, t.w3, t.w4, t.w5] ++ [t.w6] from rfl, val_append, h]
    simp [val]
  rw [Window.finish, val_condSubN_mod (by simp) (by rw [hl]; exact ht), hl]

/-- Six rounds, folded or nested. -/
theorem foldl_six (f : Nat → Word → Nat) (t : Nat) (b0 b1 b2 b3 b4 b5 : Word) :
    [b0, b1, b2, b3, b4, b5].foldl f t = f (f (f (f (f (f t b0) b1) b2) b3) b4) b5 := rfl

/-- The unrolled rounds of any round function that keeps the value law. -/
theorem flatRounds_spec {a : Nat} {r : Window → Word → Window}
    (step : ∀ t y, val t.toList < 2 * Rom.n →
      val (r t y).toList = valueRound a (val t.toList) y ∧ valueRound a (val t.toList) y < 2 * Rom.n)
    (b : Nat) :
    val (flatRounds r b).toList = valueRounds a (words 6 b) ∧ valueRounds a (words 6 b) < 2 * Rom.n := by
  have next : ∀ {t : Window} {v : Nat} (y : Word), val t.toList = v ∧ v < 2 * Rom.n →
      val (r t y).toList = valueRound a v y ∧ valueRound a v y < 2 * Rom.n := fun y h => by
    obtain ⟨rfl, hlt⟩ := h
    exact step _ y hlt
  have h0 : val (Window.toList ⟨0, 0, 0, 0, 0, 0, 0⟩) = 0 ∧ 0 < 2 * Rom.n :=
    ⟨by simp [Window.toList, val], by decide +kernel⟩
  rw [valueRounds, words_eq_wordAt, foldl_six]
  exact next _ (next _ (next _ (next _ (next _ (next _ h0)))))

theorem flatRounds_w6 {r : Window → Word → Window} (h : ∀ t y, (r t y).w6 = 0) (b : Nat) :
    (flatRounds r b).w6 = 0 := h _ _

theorem ciosFlattened_eq {a b : Nat} (ha : a < Rom.n) :
    ciosFlattened a b = valueRounds a (words 6 b) % Rom.n := by
  obtain ⟨h1, h2⟩ := flatRounds_spec (a := a)
    (r := flatRound (wordAt a 0) (wordAt a 1) (wordAt a 2) (wordAt a 3) (wordAt a 4) (wordAt a 5))
    (fun t y h => ⟨flatRound_spec ha h y, valueRound_lt ha h y⟩) b
  rw [ciosFlattened, Window.finish_eq (flatRounds_w6 (fun t y => flatRound_w6 _ _ _ _ _ _ t y) b) (h1 ▸ h2), h1]

/-! ### One more round -/

theorem foldl_snoc {α β : Type} (f : α → β → α) (z : α) (l : List β) (b : β) :
    (l ++ [b]).foldl f z = f (l.foldl f z) b := by
  rw [List.foldl_append]
  rfl

/-- One more round on values (41_montmul.md R103). -/
theorem valueRounds_append (a : Nat) (l : List Word) (b : Word) :
    valueRounds a (l ++ [b]) = valueRound a (valueRounds a l) b := by
  unfold valueRounds
  exact foldl_snoc (valueRound a) 0 l b

/-- One more round on words (41_montmul.md R101). -/
theorem ciosRounds_append (la bs : List Word) (b : Word) (i : Nat) (acc : List Word) :
    ciosRounds la i acc (bs ++ [b]) = ciosRound la (i + bs.length) (ciosRounds la i acc bs) b := by
  induction bs generalizing i acc with
  | nil => rfl
  | cons c bs ih =>
    rw [List.cons_append, ciosRounds, ih, ciosRounds, List.length_cons, Nat.add_right_comm, Nat.add_assoc]

/-! ### Every tier -/

/-- R·R⁻¹ = 1 modulo N (10_state.md R35 (f)). -/
theorem r_mul_rInv : 2 ^ (64 * 6) * Rom.rInv % Rom.n = 1 := by decide +kernel

theorem modEq_of_mul_r {x y : Nat} (h : 2 ^ (64 * 6) * x ≡ y [MOD Rom.n]) : x ≡ y * Rom.rInv [MOD Rom.n] := by
  have h1 : 2 ^ (64 * 6) * Rom.rInv ≡ 1 [MOD Rom.n] := by
    rw [Nat.ModEq, r_mul_rInv]; decide +kernel
  calc x = 1 * x := (Nat.one_mul x).symm
    _ ≡ 2 ^ (64 * 6) * Rom.rInv * x [MOD Rom.n] := h1.symm.mul_right x
    _ = 2 ^ (64 * 6) * x * Rom.rInv := by ring
    _ ≡ y * Rom.rInv [MOD Rom.n] := h.mul_right _

/-- The value of the rounds (41_montmul.md R105). -/
theorem valueRounds_mod {a b : Nat} (hb : b < 2 ^ (64 * 6)) :
    valueRounds a (words 6 b) % Rom.n = a * b * Rom.rInv % Rom.n := by
  obtain ⟨m, -, h⟩ := valueRounds_eq a 0 (words 6 b)
  rw [words_length, val_words_of_lt hb, Nat.zero_add] at h
  exact modEq_of_mul_r (by rw [valueRounds, h]; simp [Nat.ModEq])

/-- Every tier computes a·b·R⁻¹ mod N on reduced operands (41_montmul.md R105, R106). -/
theorem montMul_eq (tier : MulTier) {a b : Nat} (ha : a < Rom.n) (hb : b < Rom.n) :
    montMul tier a b = a * b * Rom.rInv % Rom.n := by
  have hn := n_lt
  have hv := valueRounds_mod (a := a) (b := b) (by omega)
  have href : ciosReference a b = a * b * Rom.rInv % Rom.n := by
    rw [ciosReference_eq, val_condSubN_windowRounds ha, hv]
  cases tier with
  | reference => exact href
  | flattened => exact (ciosFlattened_eq ha).trans hv
  | intrinsic => exact (ciosIntrinsic_eq a b).trans href
  | machineCode => rfl

end Sys2Proof.Machine
end

