-- ==== Sys2Proof/Laws/Command.lean ====
section
/-! SUPPORT. Everything a command can do, said once: `exec_eq` for every command, and what its result is where the
operands are reduced. -/

namespace Sys2Proof.Machine

/-- Latching the buffers in order, up to the first failure. -/
def State.latchAll (s : State) : List BufAddr → Except Fault (List Nat)
  | [] => .ok []
  | b :: bs =>
    match s.latch b with
    | .error f => .error f
    | .ok x => (s.latchAll bs).map (x :: ·)

/-- The operation of a command on its operand values, in the order of its sources. -/
def opValue (tier : MulTier) (i : Instr) (xs : List Nat) : Nat :=
  match i with
  | .add _ _ _ => addDatapath (xs.getD 0 0) (xs.getD 1 0)
  | .sub _ _ _ => subDatapath (xs.getD 0 0) (xs.getD 1 0)
  | .mmul _ _ _ => montMul tier (xs.getD 0 0) (xs.getD 1 0)
  | .tomont _ _ => montMul tier (xs.getD 0 0) Rom.r2
  | .tonorm _ _ => montMul tier (xs.getD 0 0) Rom.one

/-- Every command: illegal by range, a fault of its latches, or its result written. -/
theorem exec_eq (i : Instr) (s : State) :
    exec i s =
      if i.wellFormed s.cfg.omemWords then
        match s.latchAll i.sources with
        | .error f => .fault f
        | .ok xs => .next (s.writeResult i.dest (xs.all reduced) (opValue s.cfg.mulTier i xs))
      else .next (s.raiseCmdError rangeBit (encode i)) := by
  have hc := check_encode s.cfg.omemWords i
  by_cases hw : i.wellFormed s.cfg.omemWords = true
  · rw [if_pos hw] at hc ⊢
    cases i with
    | add d a b =>
      simp only [exec, execAdd, runBinary, hc, if_true, Instr.sources, Instr.dest, State.latchAll]
      cases s.latch a with
      | error f => rfl
      | ok x => cases s.latch b <;> simp [Except.map, opValue]
    | sub d a b =>
      simp only [exec, execSub, runBinary, hc, if_true, Instr.sources, Instr.dest, State.latchAll]
      cases s.latch a with
      | error f => rfl
      | ok x => cases s.latch b <;> simp [Except.map, opValue]
    | mmul d a b =>
      simp only [exec, execMmul, runBinary, hc, if_true, Instr.sources, Instr.dest, State.latchAll]
      cases s.latch a with
      | error f => rfl
      | ok x => cases s.latch b <;> simp [Except.map, opValue]
    | tomont d a =>
      simp only [exec, execTomont, runUnary, hc, if_true, Instr.sources, Instr.dest, State.latchAll]
      cases s.latch a <;> simp [Except.map, opValue]
    | tonorm d a =>
      simp only [exec, execTonorm, runUnary, hc, if_true, Instr.sources, Instr.dest, State.latchAll]
      cases s.latch a <;> simp [Except.map, opValue]
  · rw [if_neg hw] at hc ⊢
    have hne : rangeBit ≠ 0 := by decide
    cases i <;>
      simp only [exec, execAdd, execSub, execMmul, execTomont, execTonorm, runBinary, runUnary, hc, if_neg hne]

/-- The sources latch exactly when each buffer holds its value. -/
theorem State.latchAll_ok_iff (s : State) (bs : List BufAddr) (xs : List Nat) :
    s.latchAll bs = .ok xs ↔ List.Forall₂ s.Holds bs xs := by
  induction bs generalizing xs with
  | nil => cases xs <;> simp [State.latchAll]
  | cons b bs ih =>
    rw [State.latchAll]
    cases h : s.latch b with
    | error f =>
      simp only [reduceCtorEq, false_iff]
      intro hf
      cases hf with
      | cons hx _ =>
        rw [← State.latch_ok_iff, h] at hx
        cases hx
    | ok x =>
      have hx := (s.latch_ok_iff b x).1 h
      cases xs with
      | nil => cases s.latchAll bs <;> simp [Except.map]
      | cons y ys =>
        have key : (s.latchAll bs).map (x :: ·) = .ok (y :: ys) ↔ x = y ∧ s.latchAll bs = .ok ys := by
          cases s.latchAll bs <;> simp [Except.map]
        rw [key, ih, List.forall₂_cons]
        constructor
        · rintro ⟨rfl, hr⟩
          exact ⟨hx, hr⟩
        · rintro ⟨hy, hr⟩
          exact ⟨hx.unique hy, hr⟩

/-- What `writeResult` leaves in the destination. -/
theorem State.writeResult_holds (s : State) (d : BufAddr) {r : Nat} (hr : r < 2 ^ 384) :
    (s.writeResult d true r).Holds d r ∧ (s.writeResult d false r).Holds d s.drawValue := by
  have hv : s.drawValue < 2 ^ 384 := (Config.draw384 s.draws).isLt
  exact ⟨s.memWrite_holds d hr, s.afterDraw.memWrite_holds d hv⟩

theorem State.writeResult_sameOutside (s : State) (d : BufAddr) (b : Bool) (r : Nat) :
    SameOutside d s (s.writeResult d b r) := by
  cases b
  · exact s.afterDraw.memWrite_sameOutside d s.drawValue
  · exact s.memWrite_sameOutside d r

theorem State.writeResult_sameControl (s : State) (d : BufAddr) (b : Bool) (r : Nat) :
    SameControl s (s.writeResult d b r) := by
  constructor <;> simp

/-- What a command may answer: a next state by the range exception, a fault of its latches, or a written result. -/
theorem exec_cases (i : Instr) (s : State) :
    (i.wellFormed s.cfg.omemWords = false ∧ exec i s = .next (s.raiseCmdError rangeBit (encode i))) ∨
    (i.wellFormed s.cfg.omemWords = true ∧ ∃ f, s.latchAll i.sources = .error f ∧ exec i s = .fault f) ∨
    (i.wellFormed s.cfg.omemWords = true ∧ ∃ xs, List.Forall₂ s.Holds i.sources xs ∧
      exec i s = .next (s.writeResult i.dest (xs.all reduced) (opValue s.cfg.mulTier i xs))) := by
  rw [exec_eq]
  cases hw : i.wellFormed s.cfg.omemWords with
  | false => simp
  | true =>
    cases h : s.latchAll i.sources with
    | error f => simp
    | ok xs =>
      refine .inr (.inr ⟨rfl, xs, (s.latchAll_ok_iff _ _).1 h, ?_⟩)
      simp

/-- The result of a legal command whose sources hold values. -/
theorem exec_of_holds {i : Instr} {s : State} (hw : i.wellFormed s.cfg.omemWords = true) {xs : List Nat}
    (hx : List.Forall₂ s.Holds i.sources xs) :
    exec i s = .next (s.writeResult i.dest (xs.all reduced) (opValue s.cfg.mulTier i xs)) := by
  rw [exec_eq, if_pos hw, (s.latchAll_ok_iff _ _).2 hx]

theorem r2_lt : Rom.r2 < Rom.n := by decide +kernel

theorem one_lt : Rom.one < Rom.n := by decide +kernel

end Sys2Proof.Machine
end

