-- ==== Sys2Proof/Laws/PerInstr.lean ====
section
/-! SUPPORT. Per-instruction families. EncodeMatches: a command's word has the fixed bits of its row of the opcode
table (30_encoding.md R64). -/

namespace Sys2Proof.Laws.EncodeMatches

/-- Under the row's mask the encoded word is the row's match value. -/
def Statement (i : Instr) : Prop := encode i &&& (matchMask i).2 = (matchMask i).1

theorem lowMask_getLsbD (k : Nat) : (0xffff#64 : Word).getLsbD k = decide (k < 16) := by
  show ((BitVec.allOnes 16).setWidth 64).getLsbD k = _
  rw [BitVec.getLsbD_setWidth, BitVec.getLsbD_allOnes]
  by_cases h : k < 16 <;> simp [h]
  omega

theorem highMask_getLsbD {k : Nat} (hk : k < 64) :
    (0xffff00000000ffff#64 : Word).getLsbD k = (decide (k < 16) || decide (48 ≤ k)) := by
  show ((BitVec.allOnes 16).setWidth 64 ||| ((BitVec.allOnes 16).setWidth 64 <<< 48)).getLsbD k = _
  rw [BitVec.getLsbD_or, BitVec.getLsbD_shiftLeft, BitVec.getLsbD_setWidth, BitVec.getLsbD_setWidth,
    BitVec.getLsbD_allOnes, BitVec.getLsbD_allOnes]
  by_cases h : k < 16
  · simp [h, hk, show k < 48 by omega]
  · by_cases h3 : k < 48
    · simp [h, h3, show ¬ 48 ≤ k by omega]
    · simp [h, h3, hk, show 48 ≤ k by omega, show k - 48 < 16 by omega, show k - 48 < 64 by omega]

theorem enc_and_low (o : BitVec 4) (d a b : BufAddr) : enc o d a b &&& 0xffff#64 = o.setWidth 64 := by
  apply BitVec.eq_of_getLsbD_eq
  intro k hk
  rw [BitVec.getLsbD_and, lowMask_getLsbD]
  by_cases h : k < 16
  · have h2 : k < 32 := by omega
    have h3 : k < 48 := by omega
    simp [enc, hk, h, h2, h3]
  · simp [h, BitVec.getLsbD_of_ge o k (by omega)]

theorem enc_and_high (o : BitVec 4) (d a : BufAddr) :
    enc o d a 0 &&& 0xffff00000000ffff#64 = o.setWidth 64 := by
  apply BitVec.eq_of_getLsbD_eq
  intro k hk
  rw [BitVec.getLsbD_and, highMask_getLsbD hk]
  by_cases h : k < 16
  · have h2 : k < 32 := by omega
    simp [enc, hk, h, h2]
  · by_cases h3 : k < 48
    · simp [h, show ¬ 48 ≤ k by omega, BitVec.getLsbD_of_ge o k (by omega)]
    · simp [enc, h, BitVec.getLsbD_of_ge o k (by omega), BitVec.getLsbD_of_ge d (k - 16) (by omega),
        BitVec.getLsbD_of_ge a (k - 32) (by omega)]

theorem add (dst srca srcb : BufAddr) : Statement (.add dst srca srcb) := enc_and_low _ _ _ _

theorem sub (dst srca srcb : BufAddr) : Statement (.sub dst srca srcb) := enc_and_low _ _ _ _

theorem mmul (dst srca srcb : BufAddr) : Statement (.mmul dst srca srcb) := enc_and_low _ _ _ _

theorem tomont (dst srca : BufAddr) : Statement (.tomont dst srca) := enc_and_high _ _ _

theorem tonorm (dst srca : BufAddr) : Statement (.tonorm dst srca) := enc_and_high _ _ _

end Sys2Proof.Laws.EncodeMatches
end

