-- ==== Sys2Proof/Laws/Step.lean ====
section
/-! SUPPORT. Everything a step can do, said once (`step_cases`), and the causes and STATUS as bits. -/

namespace Sys2Proof

/-- The fields of a command word as arithmetic on its number (30_encoding.md R61). -/
theorem fields_toNat (w : Word) :
    (opcField w).toNat = w.toNat % 16 ∧ (rsvField w).toNat = w.toNat / 2 ^ 4 % 2 ^ 12 ∧
    (dstField w).toNat = w.toNat / 2 ^ 16 % 2 ^ 16 ∧ (srcaField w).toNat = w.toNat / 2 ^ 32 % 2 ^ 16 ∧
    (srcbField w).toNat = w.toNat / 2 ^ 48 := by
  have := w.isLt
  simp [opcField, rsvField, dstField, srcaField, srcbField, Nat.shiftRight_eq_div_pow]
  omega

namespace Machine

/-- The causes of an illegal command lie in STATUS bits 2:0 (10_state.md R31). -/
theorem check_and_mask (n : Nat) (w : Word) : check n w &&& statusMask = check n w := by
  have h : ∀ (P Q : Prop) [Decidable P] [Decidable Q],
      ((if P then rsvnzBit else 0) ||| (if Q then 0 else rangeBit)) &&& statusMask =
        (if P then rsvnzBit else 0) ||| (if Q then 0 else rangeBit) := by
    intro P Q _ _
    by_cases P <;> by_cases Q <;> simp [*] <;> decide
  simp only [check]
  split
  · exact h _ _
  · decide

@[simp] theorem State.statusReg_and_mask (s : State) : s.statusReg &&& statusMask = s.statusReg := by
  simp [State.statusReg, BitVec.and_assoc]

/-- ORing causes into STATUS touches no hard-wired bit (10_state.md R31). -/
theorem State.statusReg_or_and_mask (s : State) {b : Word} (hb : b &&& statusMask = b) :
    (s.statusReg ||| b) &&& statusMask = s.statusReg ||| b := by
  conv_rhs => rw [← s.statusReg_and_mask, ← hb]
  apply BitVec.eq_of_getLsbD_eq
  intro k hk
  simp only [BitVec.getLsbD_and, BitVec.getLsbD_or]
  cases s.statusReg.getLsbD k <;> cases b.getLsbD k <;> cases statusMask.getLsbD k <;> rfl

@[simp] theorem HostOp.command_issue (w : Word) : (HostOp.issue w).command = some w := rfl

/-- Only HostIssue issues a command word. -/
theorem HostOp.command_eq_some {op : HostOp} {w : Word} : op.command = some w ↔ op = .issue w := by
  cases op <;> simp [HostOp.command]

theorem step_cons {s : State} {op : HostOp} {rest : List HostOp} (h0 : s.cfg.sharedOmem = false)
    (h : s.host = op :: rest) : step s = perform op { s with host := rest } := by
  simp [step, h0, h]

/-- Two steps, as `core.run` takes them. -/
theorem run_two {s a b : State} (h1 : step s = .next a) (h2 : step a = .next b) :
    Sys2Proof.core.run 2 s = .next b := by
  have hc : Sys2Proof.core.step = step := rfl
  simp only [Host.Core.run, hc]
  rw [h1]
  simp only
  rw [h2]

/-- Everything a step that answers a next state can have done: idled, written an OMEM word for the host, returned it
a word, reset, recorded an illegal command, or written a legal command's result. -/
theorem step_cases {s t : State} (h : step s = .next t) :
    s.cfg.sharedOmem = false ∧
    ((s.host = [] ∧ t = s) ∨
    ∃ op rest, s.host = op :: rest ∧
      ((∃ k v, op = .writeWord k v ∧ k < s.cfg.omemWords ∧
          t = { s with host := rest, omem := s.omem.write k v }) ∨
      (∃ v, ((∃ k, op = .readWord k ∧ k < s.cfg.omemWords ∧ s.omem.read k = some v) ∨
            (op = .readStatus ∧ v = s.statusReg) ∨ (op = .readErrcmd ∧ v = s.errcmd)) ∧
          t = { s with host := rest, replies := s.replies ++ [v] }) ∨
      (op = .reset ∧ t = ({ s with host := rest } : State).coreReset) ∨
      (∃ w, op = .issue w ∧ (∃ e, decode w = .error e) ∧
          t = ({ s with host := rest } : State).raiseCmdError (check s.cfg.omemWords w) w) ∨
      (∃ w i, op = .issue w ∧ decode w = .ok i ∧ i.wellFormed s.cfg.omemWords = false ∧
          t = ({ s with host := rest } : State).raiseCmdError rangeBit (encode i)) ∨
      (∃ w i xs, op = .issue w ∧ decode w = .ok i ∧ i.wellFormed s.cfg.omemWords = true ∧
          List.Forall₂ s.Holds i.sources xs ∧
          t = ({ s with host := rest } : State).writeResult i.dest (xs.all reduced)
            (opValue s.cfg.mulTier i xs)))) := by
  have h0 : s.cfg.sharedOmem = false := by
    cases hh : s.cfg.sharedOmem with
    | false => rfl
    | true => simp [step, hh] at h
  refine ⟨h0, ?_⟩
  cases hs : s.host with
  | nil =>
    simp [step, h0, hs] at h
    exact .inl ⟨rfl, h.symm⟩
  | cons op rest =>
    rw [step_cons h0 hs] at h
    refine .inr ⟨op, rest, rfl, ?_⟩
    cases op with
    | writeWord k v =>
      simp only [perform, hostWriteWord] at h
      split at h
      · cases h; exact .inl ⟨k, v, rfl, ‹_›, rfl⟩
      · cases h
    | readWord k =>
      simp only [perform, hostReadWord] at h
      split at h
      · split at h
        · cases h; exact .inr (.inl ⟨_, .inl ⟨k, rfl, ‹_›, ‹_›⟩, rfl⟩)
        · cases h
      · cases h
    | readStatus => cases h; exact .inr (.inl ⟨_, .inr (.inl ⟨rfl, rfl⟩), rfl⟩)
    | readErrcmd => cases h; exact .inr (.inl ⟨_, .inr (.inr ⟨rfl, rfl⟩), rfl⟩)
    | reset => cases h; exact .inr (.inr (.inl ⟨rfl, rfl⟩))
    | issue w =>
      simp only [perform, hostIssue] at h
      cases hd : decode w with
      | error e =>
        rw [hd] at h
        cases h
        exact .inr (.inr (.inr (.inl ⟨w, rfl, ⟨e, hd⟩, rfl⟩)))
      | ok i =>
        rw [hd] at h
        simp only at h
        rcases exec_cases i { s with host := rest } with ⟨hw, he⟩ | ⟨-, f, -, he⟩ | ⟨hw, xs, hx, he⟩
        · rw [he] at h
          cases h
          exact .inr (.inr (.inr (.inr (.inl ⟨w, i, rfl, hd, hw, rfl⟩))))
        · rw [he] at h; cases h
        · rw [he] at h
          cases h
          exact .inr (.inr (.inr (.inr (.inr ⟨w, i, xs, rfl, hd, hw, hx, rfl⟩))))

end Machine

end Sys2Proof
end

