-- ==== Sys2Proof/Tests/Slice0.lean ====
section
/-! SUPPORT. Tests of the model against 95_test_vectors.md and the encodings of 30_encoding.md, the ill-formed commands
that `wellFormed` refuses, and for every obligation with hypotheses a witness that meets them. -/

namespace Sys2Proof.Tests

-- One theorem after another: each kernel decision below would otherwise hold a thread of its own.
set_option Elab.async false

open Sys2Proof.Machine

/-! ### Helpers -/

/-- The default build right after reset, with the elements of a list of (address, value) pairs in OMEM. -/
def load (els : List (Nat × Nat)) : State :=
  { State.reset with omem := els.foldl (fun m e => m.writeWords e.1 (words 6 e.2)) [] }

/-- Does the outcome answer a next state of which `p` holds? -/
def nextHas (o : Host.Outcome State Fault Refusal) (p : State → Bool) : Bool :=
  match o with
  | .next t => p t
  | _ => false

/-- Does the outcome fault with `f`? -/
def faultsWith (o : Host.Outcome State Fault Refusal) (f : Fault) : Bool :=
  match o with
  | .fault g => g == f
  | _ => false

/-- Is the outcome refused for the reason `r`? -/
def refusedWith (o : Host.Outcome State Fault Refusal) (r : Refusal) : Bool :=
  match o with
  | .refused q => q == r
  | _ => false

/-- The element at `b` is `v`. -/
def elementIs (b : BufAddr) (v : Nat) (s : State) : Bool :=
  match s.latch b with
  | .ok x => x == v
  | .error _ => false

/-- R mod N, as 95_test_vectors.md prints it (TOMONT-2). -/
def rModN : Nat :=
  0x15f65ec3fa80e493_5c071a97a256ec6d_77ce585370525745_5f48985753c758ba_ebf4000bc40c0002_760900000002fffd

/-- The second operand of 95_test_vectors.md MMUL-11. -/
def mmul11b : Nat :=
  0x040ab3263eff0206_ef148d1ea0f4c069_eca8f3318332bb7a_07e83a49a2e99d69_32b7fff2ed47fffd_43f5fffffffcaaae

/-- Elements with boundary values: N − 1, 1, 2, N (not reduced), R mod N, the operand of MMUL-11, 0. -/
def sample : State :=
  load [(0, Rom.n - 1), (6, 1), (12, 2), (18, Rom.n), (24, rModN), (30, mmul11b), (36, 0)]

/-- `sample` in a build with 42 OMEM words, in another tier. -/
def sample42 : State := { sample with cfg := ⟨42, .flattened, false⟩ }

/-- `sample` after an illegal command: STATUS and ERRCMD of 95_test_vectors.md LEG-12. -/
def marked : State := { sample with status := 4, errcmd := 0x00000000fffb0001#64 }

/-- A build in which two cores share the OMEM. -/
def shared : State := State.powerOn ⟨65536, .reference, true⟩

theorem exists_next {o : Host.Outcome State Fault Refusal} {p : State → Bool} (h : nextHas o p = true) :
    ∃ t, o = .next t ∧ p t = true := by
  cases o with
  | next t => exact ⟨t, rfl, h⟩
  | fault f => cases h
  | refused r => cases h

theorem is_fault {o : Host.Outcome State Fault Refusal} {f : Fault} (h : faultsWith o f = true) : o = .fault f := by
  cases o with
  | next t => cases h
  | fault g => rw [faultsWith, beq_iff_eq] at h; rw [h]
  | refused r => cases h

/-! ### WellFormed: the smoke test (20_memory.md R41; 95_test_vectors.md LEG-11 to LEG-17) -/

theorem test_wellFormed_highest_buffer : (Instr.add 65530 65530 65530).wellFormed 65536 = true := by decide
theorem test_wellFormed_dst_refused : (Instr.add 65531 0 0).wellFormed 65536 = false := by decide
theorem test_wellFormed_srca_refused : (Instr.sub 0 65531 0).wellFormed 65536 = false := by decide
theorem test_wellFormed_srcb_refused : (Instr.mmul 0 0 65535).wellFormed 65536 = false := by decide
theorem test_wellFormed_unary_dst_refused : (Instr.tonorm 65531 0).wellFormed 65536 = false := by decide
theorem test_wellFormed_unary_srca_refused : (Instr.tomont 0 65535).wellFormed 65536 = false := by decide
theorem test_wellFormed_small_build :
    (Instr.add 10 0 0).wellFormed 16 = true ∧ (Instr.add 11 0 0).wellFormed 16 = false := by decide

/-! ### Decode: words written out from the fields of 30_encoding.md R61, SRCB, SRCA, DST, RSV, OPC from the top -/

theorem test_decode_add :
    decode 0b0000000000000110_0000000000000101_0000000000001100_000000000000_0001#64 = .ok (.add 12 5 6) := by decide
theorem test_decode_sub :
    decode 0b1000000000000000_0000000000000001_1111111111111010_000000000000_0010#64 =
      .ok (.sub 65530 1 32768) := by decide
theorem test_decode_mmul :
    decode 0b0000000000010010_0000000000001100_0000000000011000_000000000000_0011#64 = .ok (.mmul 24 12 18) := by
  decide
theorem test_decode_tomont :
    decode 0b0000000000000000_0000000000000110_0000000000001100_000000000000_0100#64 = .ok (.tomont 12 6) := by decide
theorem test_decode_tonorm :
    decode 0b0000000000000000_0000000000011000_0000000000011110_000000000000_0101#64 = .ok (.tonorm 30 24) := by decide

/-- The opcodes 0 and 6 to 15 name no command (30_encoding.md R65 (a)). -/
theorem test_decode_illop :
    [0x0#64, 0x6#64, 0x7#64, 0x8#64, 0x9#64, 0xa#64, 0xb#64, 0xc#64, 0xd#64, 0xe#64, 0xf#64,
      0xffffffffffffffff#64].all (decode · matches .error .illop) = true := by decide

/-- A nonzero reserved field is no command (30_encoding.md R65 (b), (c)). -/
theorem test_decode_rsvnz :
    [0x11#64, 0x8002#64, 0x8003#64, 0x0006000600000004#64, 0xffff0000fffa0005#64].all
      (decode · matches .error .rsvnz) = true := by decide

theorem test_decodeTableWord :
    decodeTableWord 64 0x0012000c00180003 = some (.mmul 24 12 18) ∧ decodeTableWord 8 5 = some (.tonorm 0 0) ∧
    decodeTableWord 64 0 = none := by decide

/-- 95_test_vectors.md LEG-1 to LEG-15. -/
theorem test_check_default_build :
    [0x000c000600000001#64, 0x0#64, 0x6#64, 0xf#64, 0xffffffffffffffff#64, 0x11#64, 0x17#64, 0x0006000600000004#64,
      0xffff000600000005#64, 0xffff0000fffa0005#64, 0x00000000fffa0001#64, 0x00000000fffb0001#64,
      0xffff000000000003#64, 0x0000ffff00000004#64, 0x0000ffff0000fff2#64].map (check 65536) =
    [0, 1, 1, 1, 1, 2, 1, 2, 2, 2, 0, 4, 4, 4, 6] := by decide

/-- 95_test_vectors.md LEG-16, LEG-17. -/
theorem test_check_small_build :
    check 16 0x00000000000a0001#64 = 0 ∧ check 16 0x00000000000b0001#64 = 4 := by decide

/-! ### The commands -/

/-- 95_test_vectors.md ADD-4: (N − 1) + (N − 1) = N − 2. -/
theorem test_add_wraps : nextHas (exec (.add 42 0 0) sample) (elementIs 42
    0x1a0111ea397fe69a_4b1ba7b6434bacd7_64774b84f38512bf_6730d2a0f6b0f624_1eabfffeb153ffff_b9feffffffffaaa9) = true := by
  decide +kernel

/-- 95_test_vectors.md ALI-4: a destination that overlaps both sources. -/
theorem test_add_overlap : nextHas (exec (.add 3 0 6) (load [(0, 1), (6, 0)]))
    (fun t => t.omem == [(0, 1), (1, 0), (2, 0), (3, 1), (4, 0), (5, 0), (6, 0), (7, 0), (8, 0), (9, 0), (10, 0),
      (11, 0)]) = true := by decide +kernel

/-- 95_test_vectors.md SUB-2: 0 − 1 = N − 1. -/
theorem test_sub_borrows : nextHas (exec (.sub 42 36 6) sample) (elementIs 42
    0x1a0111ea397fe69a_4b1ba7b6434bacd7_64774b84f38512bf_6730d2a0f6b0f624_1eabfffeb153ffff_b9feffffffffaaaa) = true := by
  decide +kernel

/-- 95_test_vectors.md SUB-4: 1 − (N − 1) = 2, written over a source. -/
theorem test_sub_aliased : nextHas (exec (.sub 6 6 0) sample) (elementIs 6 2) = true := by decide +kernel

/-- 95_test_vectors.md MMUL-9: a = b = 2. -/
theorem test_mmul_small : nextHas (exec (.mmul 42 12 12) sample) (elementIs 42
    918614312305583488013958923497266713284423246235876764211174374056024717025524517611147730038305562744191542239359)
    = true := by
  decide +kernel

/-- 95_test_vectors.md MMUL-11, in each tier. -/
theorem test_mmul_tiers : [MulTier.reference, .flattened, .intrinsic, .machineCode].all (fun tier =>
    nextHas (exec (.mmul 42 0 30) { sample with cfg := { sample.cfg with mulTier := tier } }) (elementIs 42 1)) = true := by
  decide +kernel

/-- 95_test_vectors.md TOMONT-2: mont(1) = R mod N. -/
theorem test_tomont_one : nextHas (exec (.tomont 42 6) sample) (elementIs 42 rModN) = true := by decide +kernel

/-- 95_test_vectors.md TOMONT-4: mont(N − 1). -/
theorem test_tomont_top : nextHas (exec (.tomont 0 0) sample) (elementIs 0 mmul11b) = true := by decide +kernel

/-- 95_test_vectors.md TONORM-3. -/
theorem test_tonorm_one : nextHas (exec (.tonorm 42 24) sample) (elementIs 42 1) = true := by decide +kernel

/-- 95_test_vectors.md TONORM-2: the operand 1. -/
theorem test_tonorm_rInv : nextHas (exec (.tonorm 42 6) sample) (elementIs 42
    3231460744492646417066832100176244795738767926513225105051837195607029917124509527734802654356338138714468589979680)
    = true := by decide +kernel

/-- 95_test_vectors.md UNR-1, UNR-3: an operand that is not reduced draws a free value and STATUS stays 0. -/
theorem test_unreduced : nextHas (exec (.add 42 18 36) sample) (fun t => t.statusReg == 0 && t.draws == 1) = true ∧
    nextHas (exec (.tomont 42 18) sample) (fun t => t.statusReg == 0 && t.draws == 1) = true := by decide +kernel

/-! ### Illegal commands, model faults and refusals -/

/-- 95_test_vectors.md STK-1: LEG-3, then LEG-12. -/
theorem test_sticky : nextHas (Sys2Proof.core.run 2 (State.reset.withProgram [0x6#64, 0x00000000fffb0001#64]))
    (fun t : State => t.statusReg == 5 && t.errcmd == 6 && t.omem == []) = true := by decide

/-- 95_test_vectors.md STK-2: the all-zero word. -/
theorem test_zero_word : nextHas (step (State.reset.issueNext 0)) (fun t => t.statusReg == 1 && t.errcmd == 0) = true := by
  decide

/-- 95_test_vectors.md STK-4: Reset() after an error. -/
theorem test_reset : nextHas (step { marked with host := [.reset] })
    (fun t => t.statusReg == 0 && t.errcmd == 0 && t.omem == []) = true := by decide +kernel

/-- 95_test_vectors.md MOD-1, MOD-2. -/
theorem test_uninit : faultsWith (exec (.add 0 0 0) State.reset) (.uninitRead 0) = true ∧
    faultsWith (exec (.tonorm 6 0) { State.reset with omem := [(0, 1), (1, 1), (2, 1), (3, 1), (4, 1)] })
      (.uninitRead 5) = true := by decide

/-- 95_test_vectors.md MOD-3. -/
theorem test_hostRange : refusedWith (step { State.reset with host := [.writeWord 65536 0] }) (.hostRange 65536) = true := by
  decide

/-- 60_exceptions.md R154 (c). -/
theorem test_shared : refusedWith (step shared) .sharedOMEM = true := by decide

/-- 10_state.md R30: the replies of the host's reads. -/
theorem test_host_reads : nextHas (Sys2Proof.core.run 4
      { State.reset with status := 4, errcmd := 9, host := [.writeWord 65535 7, .readWord 65535, .readStatus, .readErrcmd] })
    (fun t : State => t.replies == [7, 4, 9] && t.omem == [(65535, 7)]) = true := by decide

/-- The first step after reset with a table word placed runs that word. -/
theorem test_withFetchWord : faultsWith (step (State.reset.withFetchWord 64 0x0012000c00180003)) (.uninitRead 12) = true := by
  decide

/-! ### The assembler (30_encoding.md R69) -/

/-- 30_encoding.md R69 and R70: mnemonics in either case, decimal or hex, a comment. -/
theorem test_assemble : Asm.assembleLine "add 12, 0x0, 6 ; c = a + b".toList = .ok (some 0x00060000000c0001#64) ∧
    Asm.assembleLine "  TONORM 30 , 24".toList = .ok (some 0x00000018001e0005#64) ∧
    Asm.assembleLine ".word 0xffffffffffffffff".toList = .ok (some 0xffffffffffffffff#64) ∧
    Asm.assembleLine "; nothing".toList = .ok none := by decide +kernel

/-- A wrong count of operands, a number too large for its field, and an unknown name are refused. -/
theorem test_assemble_errors : Asm.assembleLine "TOMONT 12, 0, 6".toList = .error .operandCount ∧
    Asm.assembleLine "ADD 65536, 0, 6".toList = .error .badNumber ∧
    Asm.assembleLine "NOP".toList = .error .unknownMnemonic := by decide +kernel

/-! ### Witnesses: encoding -/

theorem witness_EncodeOfDecode : decode 0x0012000c00180003#64 = .ok (.mmul 24 12 18) := by decide

theorem witness_MatchMaskDecides :
    0x0012000c00180003#64 &&& (matchMask (.mmul 24 12 18)).2 = (matchMask (.mmul 24 12 18)).1 ∧
    0x0012000c00180003#64 &&& (matchMask (.mmul 0 0 0)).2 = (matchMask (.mmul 0 0 0)).1 := by decide

/-- Opcodes 0 and 6, outside the table, and 1 and 5, its ends. -/
theorem witness_CheckByArithmetic :
    (0x0#64).toNat % 16 < 1 ∧ 5 < (0x6#64).toNat % 16 ∧
    1 ≤ (0x00000000fffa0001#64).toNat % 16 ∧ (0xffff0000fffa0005#64).toNat % 16 ≤ 5 := by decide

theorem witness_EveryWordLegalOrIllegal : check 65536 0x00000000fffa0001#64 = 0 ∧ check 65536 0x0#64 ≠ 0 := by decide

/-! ### Witnesses: steps and host operations -/

theorem witness_StepRunsDecodedCommand : (sample.issueNext 0x00060000002a0001#64).cfg.sharedOmem = false ∧
    (sample.issueNext 0x00060000002a0001#64).host = [.issue 0x00060000002a0001#64] ∧
    decode 0x00060000002a0001#64 = .ok (.add 42 0 6) := by decide

/-- For StepAfterFetchWord, ProgramIssuedInOrder and IdleHoldsState. -/
theorem witness_one_core : sample.cfg.sharedOmem = false ∧ sample.host = [] := by decide

theorem witness_SharedOmemRefused : shared.cfg.sharedOmem = true := by decide

/-- For StepKeepsBuild: a step that answers a next state and writes OMEM. -/
theorem witness_StepKeepsBuild : ∃ t, step (sample.issueNext 0x00060000002a0001#64) = .next t := by
  obtain ⟨t, h, -⟩ := exists_next (p := elementIs 42 0) (o := step (sample.issueNext 0x00060000002a0001#64))
    (by decide +kernel)
  exact ⟨t, h⟩

/-- The highest word of the build. -/
theorem witness_HostWriteSetsOneWord : 65535 < State.reset.cfg.omemWords ∧
    ({ State.reset with host := [.writeWord 65535 7] } : State).host = [.writeWord 65535 7] := by decide

/-- A word with a value, and one with none. -/
theorem witness_HostReadReturnsWord : sample.cfg.sharedOmem = false ∧
    ({ sample with host := [.readWord 41] } : State).host = [.readWord 41] ∧ 41 < sample.cfg.omemWords ∧
    sample.omem.read 41 = some 0 ∧ 42 < sample.cfg.omemWords ∧ sample.omem.read 42 = none := by decide +kernel

/-- The first index past the build. -/
theorem witness_HostRangeRefused : State.reset.cfg.sharedOmem = false ∧ State.reset.cfg.omemWords ≤ 65536 ∧
    ({ State.reset with host := [.writeWord 65536 7] } : State).host = [.writeWord 65536 7] ∧
    ({ State.reset with host := [.readWord 65536] } : State).host = [.readWord 65536] := by decide

theorem witness_HostReadsStatusAndErrcmd : marked.cfg.sharedOmem = false ∧
    ({ marked with host := [.readStatus] } : State).host = [.readStatus] ∧
    ({ marked with host := [.readErrcmd] } : State).host = [.readErrcmd] ∧ marked.statusReg = 4 := by decide

theorem witness_ResetSetsState : marked.cfg.sharedOmem = false ∧ marked.omem.read 0 ≠ none ∧ marked.statusReg ≠ 0 ∧
    ({ marked with host := [.reset] } : State).host = [.reset] := by decide +kernel

theorem witness_WriteThenReadReturns : State.reset.cfg.sharedOmem = false ∧ 65535 < State.reset.cfg.omemWords ∧
    ({ State.reset with host := [.writeWord 65535 7, .readWord 65535] } : State).host =
      [.writeWord 65535 7, .readWord 65535] := by decide

/-- `TONORM 42, 24` is issued and writes 1, of which the host then reads word 0. -/
theorem witness_CommandThenReadReturns :
    ({ sample with host := [.issue 0x00000018002a0005#64, .readWord (42 + 0)] } : State).host =
      [.issue 0x00000018002a0005#64, .readWord ((Instr.tonorm 42 24).dest.toNat + 0)] ∧
    sample.cfg.sharedOmem = false ∧ decode 0x00000018002a0005#64 = .ok (.tonorm 42 24) ∧
    (Instr.tonorm 42 24).wellFormed sample.cfg.omemWords = true ∧ 0 < 6 ∧
    ∃ t, exec (.tonorm 42 24) { sample with host := [.readWord (42 + 0)] } = .next t ∧ t.Holds 42 1 := by
  refine ⟨by decide, by decide, by decide, by decide, by decide, ?_⟩
  obtain ⟨t, h, hp⟩ := exists_next (p := fun t => decide (t.Holds 42 1))
    (o := exec (.tonorm 42 24) { sample with host := [.readWord (42 + 0)] }) (by decide +kernel)
  exact ⟨t, h, of_decide_eq_true hp⟩

/-! ### Witnesses: the illegal command -/

/-- With STATUS 0. -/
theorem witness_IllegalCommandException : (sample.issueNext 0x6#64).cfg.sharedOmem = false ∧
    (sample.issueNext 0x6#64).host = [.issue 0x6#64] ∧
    check (sample.issueNext 0x6#64).cfg.omemWords 0x6#64 ≠ 0 ∧ sample.statusReg = 0 := by decide

/-- With STATUS set; also the other case of IllegalCommandException. -/
theorem witness_IllegalWhileStatusSet : (marked.issueNext 0x6#64).cfg.sharedOmem = false ∧
    (marked.issueNext 0x6#64).host = [.issue 0x6#64] ∧
    check (marked.issueNext 0x6#64).cfg.omemWords 0x6#64 ≠ 0 ∧ marked.statusReg ≠ 0 := by decide

/-- The lowest buffer address out of range, in each operand and each command. -/
theorem witness_OutOfRangeRaisesRange : [Instr.add 65531 0 0, .sub 0 65531 0, .mmul 0 0 65531, .tomont 65531 0,
    .tonorm 0 65531].all (fun i => !i.wellFormed sample.cfg.omemWords) = true := by decide

/-- A step with STATUS set that is no Reset(). -/
theorem witness_StatusIsSticky : (∃ t, step (marked.issueNext 0x6#64) = .next t ∧ (t.statusReg == 5) = true) ∧
    (∀ rest, (marked.issueNext 0x6#64).host ≠ .reset :: rest) ∧ marked.statusReg ≠ 0 :=
  ⟨exists_next (by decide +kernel), (fun _ h => by cases h), by decide⟩

/-- A step that changes STATUS by an illegal command, and one that changes it by Reset(). -/
theorem witness_OnlyIllegalOrResetChangesStatus :
    (∃ t, step (sample.issueNext 0x6#64) = .next t ∧ (t.statusReg != sample.statusReg) = true) ∧
    (∃ t, step { marked with host := [.reset] } = .next t ∧ (t.statusReg != marked.statusReg) = true) :=
  ⟨exists_next (by decide +kernel), exists_next (by decide +kernel)⟩

/-- A sequence of legal commands, and one with an illegal one among them. -/
theorem witness_StatusCertifiesSequence : sample.statusReg = 0 ∧
    HostOp.reset ∉ [HostOp.issue 0x00060000002a0001#64, .readStatus] ∧
    (∃ t : State, Sys2Proof.core.run 2 { sample with host := [.issue 0x00060000002a0001#64, .readStatus] } = .next t ∧
      (t.statusReg == 0) = true) ∧
    HostOp.reset ∉ [HostOp.issue 0x6#64, .issue 0x00060000002a0001#64] ∧
    (∃ t : State, Sys2Proof.core.run 2 { sample with host := [.issue 0x6#64, .issue 0x00060000002a0001#64] } = .next t ∧
      (t.statusReg == 1) = true) :=
  ⟨by decide, by decide, exists_next (by decide +kernel), by decide, exists_next (by decide +kernel)⟩

/-! ### Witnesses: every command -/

/-- The five commands of the witnesses, on sources of `sample` that hold a value. -/
def commands : List Instr := [.add 42 0 6, .sub 42 36 6, .mmul 42 0 30, .tomont 42 6, .tonorm 42 24]

/-- For EveryCommandCompletes and CommandFrame; the last command has a source that is not reduced. -/
theorem witness_EveryCommandCompletes : (commands ++ [Instr.add 42 18 6]).all (fun i =>
    i.wellFormed sample.cfg.omemWords && i.sourceWords.all (fun k => (sample.omem.read k).isSome)) = true := by
  decide +kernel

/-- The first word with no value is the last word of the second source. -/
theorem witness_UninitReadNamesFirstWord : (Instr.add 0 0 37).wellFormed sample.cfg.omemWords = true ∧
    (Instr.add 0 0 37).sourceWords.find? (fun k => (sample.omem.read k).isNone) = some 42 := by decide +kernel

theorem witness_CommandFaultsOnlyUninit : exec (.add 0 0 37) sample = .fault (.uninitRead 42) :=
  is_fault (by decide +kernel)

/-- For CommandFrame: next states in a legal form, in one that draws a free value, and out of range. -/
theorem witness_CommandFrame : (∃ t, exec (.add 42 0 6) sample = .next t ∧ (t.draws == 0) = true) ∧
    (∃ t, exec (.add 42 18 6) sample = .next t ∧ (t.draws == 1) = true) ∧
    (∃ t, exec (.add 65531 0 6) sample = .next t ∧ (t.statusReg == 4) = true) :=
  ⟨exists_next (by decide +kernel), exists_next (by decide +kernel), exists_next (by decide +kernel)⟩

theorem sample_holds : sample.Holds 0 (Rom.n - 1) ∧ sample.Holds 6 1 ∧ sample.Holds 12 2 ∧ sample.Holds 18 Rom.n ∧
    sample.Holds 24 rModN ∧ sample.Holds 30 mmul11b ∧ sample.Holds 36 0 := by decide +kernel

/-- The second source is N itself, the least value that is not reduced. -/
theorem witness_UnreducedSourceWritesFreeValue : (Instr.add 42 0 18).wellFormed sample.cfg.omemWords = true ∧
    List.Forall₂ sample.Holds (Instr.add 42 0 18).sources [Rom.n - 1, Rom.n] ∧
    ∃ x ∈ [Rom.n - 1, Rom.n], Rom.n ≤ x :=
  ⟨by decide, .cons sample_holds.1 (.cons sample_holds.2.2.2.1 .nil), Rom.n, by simp, le_rfl⟩

/-- For ReducedSourcesGiveReducedResult, TierDoesNotShow and ReissueWritesSameResult: reduced sources, N − 1 the
greatest, which the destination does not overlap. -/
theorem witness_ReducedSourcesGiveReducedResult : (Instr.add 42 0 6).wellFormed sample.cfg.omemWords = true ∧
    List.Forall₂ sample.Holds (Instr.add 42 0 6).sources [Rom.n - 1, 1] ∧
    ([Rom.n - 1, 1].all (· < Rom.n)) = true ∧
    ((Instr.add 42 0 6).sourceWords.all fun k => !decide (InBuf 42 k)) = true :=
  ⟨by decide, .cons sample_holds.1 (.cons sample_holds.2.1 .nil), by decide +kernel, by decide⟩

/-- Two states that differ in STATUS, ERRCMD, the tier and the build. -/
theorem witness_ResultDependsOnSourcesOnly : (Instr.mmul 36 0 30).wellFormed marked.cfg.omemWords = true ∧
    (Instr.mmul 36 0 30).wellFormed sample42.cfg.omemWords = true ∧
    List.Forall₂ marked.Holds (Instr.mmul 36 0 30).sources [Rom.n - 1, mmul11b] ∧
    List.Forall₂ sample42.Holds (Instr.mmul 36 0 30).sources [Rom.n - 1, mmul11b] ∧
    ([Rom.n - 1, mmul11b].all (· < Rom.n)) = true :=
  ⟨by decide, by decide, .cons (by decide +kernel) (.cons (by decide +kernel) .nil),
    .cons (by decide +kernel) (.cons (by decide +kernel) .nil), by decide +kernel⟩

/-! ### Witnesses: each command's result -/

/-- For AddWritesModularSum: a sum of N, which wraps to 0, at the highest destination. -/
theorem witness_AddWritesModularSum : (Instr.add 65530 0 6).wellFormed sample.cfg.omemWords = true ∧
    sample.Holds 0 (Rom.n - 1) ∧ sample.Holds 6 1 ∧ Rom.n - 1 < Rom.n ∧ 1 < Rom.n := by decide +kernel

/-- For SubWritesModularDifference: no borrow (b ≤ a), and a borrow. -/
theorem witness_SubWritesModularDifference : (Instr.sub 0 0 6).wellFormed sample.cfg.omemWords = true ∧
    (Instr.sub 6 36 6).wellFormed sample.cfg.omemWords = true ∧ sample.Holds 0 (Rom.n - 1) ∧ sample.Holds 6 1 ∧
    sample.Holds 36 0 ∧ Rom.n - 1 < Rom.n ∧ 1 < Rom.n ∧ 0 < Rom.n := by decide +kernel

theorem witness_SubFixupsAgree : 2 ^ 384 - 1 < 2 ^ 384 ∧ 0 < 2 ^ 384 := by decide +kernel

/-- For AddBorrowSelects: a sum of N − 1, below N, and one of N. -/
theorem witness_AddBorrowSelects : Rom.n - 1 < Rom.n ∧ 0 < Rom.n ∧ 1 < Rom.n ∧ Rom.n - 1 + 0 < Rom.n ∧
    ¬ Rom.n - 1 + 1 < Rom.n := by decide +kernel

/-- For MmulWritesMontgomeryProduct, MmulCommutes and TiersBitIdentical; 18 holds N, which is not reduced. -/
theorem witness_MmulWritesMontgomeryProduct : (Instr.mmul 0 0 30).wellFormed sample.cfg.omemWords = true ∧
    sample.Holds 0 (Rom.n - 1) ∧ sample.Holds 30 mmul11b ∧ Rom.n - 1 < Rom.n ∧ mmul11b < Rom.n ∧
    (Instr.mmul 0 0 18).wellFormed sample.cfg.omemWords = true ∧ sample.Holds 18 Rom.n ∧ Rom.n ≤ Rom.n := by
  decide +kernel

/-- For CiosAgreesWithValueForm and CiosRoundInvariants: both operands at their greatest, the first and last round. -/
theorem witness_CiosRoundInvariants : Rom.n - 1 < Rom.n ∧ 0 < 6 ∧ 5 < 6 := by decide +kernel

theorem witness_TomontWritesMontgomeryForm : (Instr.tomont 0 0).wellFormed sample.cfg.omemWords = true ∧
    sample.Holds 0 (Rom.n - 1) ∧ Rom.n - 1 < Rom.n := by decide +kernel

/-- R mod N is mont(1). -/
theorem witness_TonormWritesNormalForm : (Instr.tonorm 24 24).wellFormed sample.cfg.omemWords = true ∧
    sample.Holds 24 rModN ∧ rModN < Rom.n ∧ 1 < Rom.n ∧ rModN = 1 * 2 ^ 384 % Rom.n := by decide +kernel

/-- In place for the round trip; distinct buffers for the product. -/
theorem witness_DomainRoundTripAndProduct : (Instr.tomont 0 0).wellFormed sample.cfg.omemWords = true ∧
    (Instr.tonorm 0 0).wellFormed sample.cfg.omemWords = true ∧ sample.Holds 0 (Rom.n - 1) ∧ Rom.n - 1 < Rom.n ∧
    (Instr.tomont 42 0).wellFormed sample.cfg.omemWords = true ∧
    (Instr.tomont 48 12).wellFormed sample.cfg.omemWords = true ∧
    (Instr.mmul 54 42 48).wellFormed sample.cfg.omemWords = true ∧
    (Instr.tonorm 60 54).wellFormed sample.cfg.omemWords = true ∧ (∀ i < 6, ¬ InBuf 42 ((12 : BufAddr).toNat + i)) ∧
    (∀ i < 6, ¬ InBuf 48 ((42 : BufAddr).toNat + i)) ∧ sample.Holds 12 2 ∧ 2 < Rom.n := by decide +kernel

/-! ### Witnesses: the invariant -/

/-- For StepKeepsInvariant and ErrcmdReadsIllegalWord: STATUS 0, and STATUS set; each steps to a next state. -/
theorem witness_StepKeepsInvariant : sample.Inv ∧ sample.statusReg = 0 ∧
    (∃ t, step (sample.issueNext 0x6#64) = .next t ∧ (t.statusReg == 1) = true) ∧ marked.Inv ∧ marked.statusReg ≠ 0 ∧
    (∃ t, step (marked.issueNext 0x6#64) = .next t ∧ (t.statusReg == 5) = true) :=
  ⟨by decide +kernel, by decide, exists_next (by decide +kernel), by decide +kernel, by decide,
    exists_next (by decide +kernel)⟩

/-- Two illegal commands after a legal one: ERRCMD keeps the first. And a sequence with none. -/
theorem witness_ErrcmdCapturesFirstIllegal : sample.statusReg = 0 ∧
    HostOp.reset ∉ [HostOp.issue 0x00060000002a0001#64, .issue 0x6#64, .issue 0x11#64] ∧
    (∃ t : State, Sys2Proof.core.run 3
      { sample with host := [.issue 0x00060000002a0001#64, .issue 0x6#64, .issue 0x11#64] } = .next t ∧
      (t.errcmd == 0x6#64) = true) ∧
    HostOp.reset ∉ [HostOp.issue 0x00060000002a0001#64, .readErrcmd] ∧
    (∃ t : State, Sys2Proof.core.run 2 { sample with host := [.issue 0x00060000002a0001#64, .readErrcmd] } = .next t ∧
      (t.errcmd == sample.errcmd) = true) :=
  ⟨by decide, by decide, exists_next (by decide +kernel), by decide, exists_next (by decide +kernel)⟩

/-- For PowerOnHasInvariant: the smallest and the greatest build. -/
theorem witness_PowerOnHasInvariant : Config.wf ⟨6, .intrinsic, false⟩ = true ∧ Config.default.wf = true := by decide

end Sys2Proof.Tests
end

section
/-! SUPPORT. Why a word that does not decode is illegal (30_encoding.md R65, R66). -/

namespace Sys2Proof

theorem rsvnzBit_or_ne_zero (x : Word) : rsvnzBit ||| x ≠ 0 :=
  fun h => absurd (BitVec.or_eq_zero_iff.1 h).1 (by decide)

/-- R66 (a): an opcode of no operation. -/
theorem check_of_unassigned_opc (n : Nat) {w : Word} (hb : isBinaryOpc (opcField w) = false)
    (hu : isUnaryOpc (opcField w) = false) : check n w = illopBit := by
  simp [check, hb, hu]

/-- R66 (b), (c): an assigned opcode and a reserved field that is not zero. -/
theorem check_ne_zero_of_rsv (n : Nat) {w : Word} (ho : isBinaryOpc (opcField w) || isUnaryOpc (opcField w))
    (hr : rsvField w ≠ 0 ∨ (isUnaryOpc (opcField w) ∧ srcbField w ≠ 0)) : check n w ≠ 0 := by
  simp only [check, if_pos ho, if_pos hr]
  exact rsvnzBit_or_ne_zero _

theorem rsvField_ne_zero_of_decodeBinary_error {mk : BufAddr → BufAddr → BufAddr → Instr} {w : Word}
    {e : DecodeError} (h : decodeBinary mk w = .error e) : rsvField w ≠ 0 := by
  intro h0
  simp [decodeBinary, h0] at h

theorem reserved_ne_zero_of_decodeUnary_error {mk : BufAddr → BufAddr → Instr} {w : Word}
    {e : DecodeError} (h : decodeUnary mk w = .error e) : rsvField w ≠ 0 ∨ srcbField w ≠ 0 := by
  by_contra h0
  simp only [not_or, not_not] at h0
  simp [decodeUnary, h0] at h

/-- A word that does not decode is illegal in every build (30_encoding.md R65, R67). -/
theorem check_ne_zero_of_decode_error (n : Nat) {w : Word} {e : DecodeError} (h : decode w = .error e) :
    check n w ≠ 0 := by
  have binary {mk : BufAddr → BufAddr → BufAddr → Instr} (hb : isBinaryOpc (opcField w))
      (hd : decodeBinary mk w = .error e) : check n w ≠ 0 :=
    check_ne_zero_of_rsv n (by simp [hb]) (.inl (rsvField_ne_zero_of_decodeBinary_error hd))
  have unary {mk : BufAddr → BufAddr → Instr} (hu : isUnaryOpc (opcField w))
      (hd : decodeUnary mk w = .error e) : check n w ≠ 0 :=
    check_ne_zero_of_rsv n (by simp [hu]) ((reserved_ne_zero_of_decodeUnary_error hd).imp_right (⟨hu, ·⟩))
  simp only [decode] at h
  split_ifs at h with h1 h2 h3 h4 h5
  · exact binary (by simp [h1, isBinaryOpc]) h
  · exact binary (by simp [h2, isBinaryOpc]) h
  · exact binary (by simp [h3, isBinaryOpc]) h
  · exact unary (by simp [h4, isUnaryOpc]) h
  · exact unary (by simp [h5, isUnaryOpc]) h
  · rw [check_of_unassigned_opc n (by simp [isBinaryOpc, h1, h2, h3]) (by simp [isUnaryOpc, h4, h5])]
    decide

end Sys2Proof
end

section
/-! PROOF. Every step keeps the invariant (10_state.md R22, R31, R32; 60_exceptions.md R143). -/

namespace Sys2Proof.Machine

theorem dest_add_six_le_of_wellFormed {n : Nat} {i : Instr} (h : i.wellFormed n = true) : i.dest.toNat + 6 ≤ n := by
  simp only [Instr.wellFormed, bufInRange, Bool.and_eq_true, decide_eq_true_eq] at h
  exact h.1

/-- A command's write phase keeps OMEM canonical, whether it writes the result or a free value. -/
theorem State.writeResult_wf {s : State} {d : BufAddr} {n : Nat} (hd : d.toNat + 6 ≤ n)
    (hm : Memory.wf n s.omem = true) (b : Bool) (r : Nat) :
    Memory.wf n (s.writeResult d b r).omem = true := by
  cases b <;> exact Memory.wf_writeWords _ (by simpa using hd) hm

/-- Where the hard-wired bits are 0, STATUS reads as it is stored (10_state.md R31). -/
theorem State.statusReg_eq_status {s : State} (h : s.status &&& ~~~statusMask = 0) : s.statusReg = s.status := by
  calc s.status &&& statusMask
      = (s.status &&& statusMask) ||| (s.status &&& ~~~statusMask) := by simp [h]
    _ = s.status := by
      rw [← BitVec.and_or_distrib_left, BitVec.or_not_self, BitVec.and_allOnes]

/-- Causes recorded once stay recorded when others are added (60_exceptions.md R144). -/
theorem or_and_eq_of_and_eq {x c : Word} (h : x &&& c = c) (y : Word) : (x ||| y) &&& c = c := by
  rw [BitVec.and_or_distrib_right, h]
  ext k hk
  simp

/-- The invariant speaks of the build, OMEM, STATUS and ERRCMD only. -/
theorem State.Inv.of_omem {s t : State} (h : s.Inv) (hcfg : t.cfg = s.cfg) (hst : t.status = s.status)
    (herr : t.errcmd = s.errcmd) (hm : Memory.wf s.cfg.omemWords t.omem = true) : t.Inv := by
  obtain ⟨hwf, -, hrest⟩ := h
  simpa only [State.Inv, hcfg, hst, herr] using ⟨hwf, hm, hrest⟩

theorem State.Inv.coreReset {s : State} (h : s.Inv) : s.coreReset.Inv :=
  ⟨h.1, rfl, by simp, by simp, by simp⟩

/-- Recording an illegal word keeps the invariant: from STATUS 0 the word is captured with its causes, and otherwise
ERRCMD and the causes it had stay (60_exceptions.md R143). -/
theorem State.Inv.raiseCmdError {s : State} (h : s.Inv) {w : Word} (hw : check s.cfg.omemWords w ≠ 0) :
    (s.raiseCmdError (check s.cfg.omemWords w) w).Inv := by
  obtain ⟨hwf, hm, hwired, -, herr⟩ := h
  have hreg := State.statusReg_eq_status hwired
  have hstatus : (s.raiseCmdError (check s.cfg.omemWords w) w).status = s.status ||| check s.cfg.omemWords w := by
    rw [State.raiseCmdError_status, s.statusReg_or_and_mask (check_and_mask _ w), hreg]
  have hne : s.status ||| check s.cfg.omemWords w ≠ 0 := fun h => hw (BitVec.or_eq_zero_iff.1 h).2
  refine ⟨by simpa using hwf, by simpa using hm, ?_, fun h0 => absurd (hstatus ▸ h0) hne, fun _ => ?_⟩
  · simp [BitVec.and_assoc]
  · rw [hstatus, State.raiseCmdError_cfg, State.raiseCmdError_errcmd, hreg]
    split
    next h0 => exact ⟨hw, by simp [h0]⟩
    next h0 =>
      obtain ⟨hillegal, hcauses⟩ := herr h0
      exact ⟨hillegal, or_and_eq_of_and_eq hcauses _⟩

/-- Settles O51, by the cases of a step: only Reset() and an illegal command touch STATUS and ERRCMD, and every
write to OMEM is within its bounds. -/
theorem stepKeepsInvariant : Obligations.StepKeepsInvariant := by
  intro s t hinv hstep
  have hm := hinv.2.1
  obtain ⟨-, ⟨-, rfl⟩ | ⟨op, rest, -, hop⟩⟩ := step_cases hstep
  · exact hinv
  have hrest : ({ s with host := rest } : State).Inv := hinv
  obtain ⟨k, v, -, hk, rfl⟩ | ⟨v, -, rfl⟩ | ⟨-, rfl⟩ | ⟨w, -, ⟨e, hd⟩, rfl⟩ | ⟨w, i, -, -, hi, rfl⟩ |
    ⟨w, i, xs, -, -, hi, -, rfl⟩ := hop
  · exact hinv.of_omem rfl rfl rfl (Memory.wf_write hk v hm)
  · exact hinv.of_omem rfl rfl rfl hm
  · exact hrest.coreReset
  · exact hrest.raiseCmdError (check_ne_zero_of_decode_error _ hd)
  · have hrange : check s.cfg.omemWords (encode i) = rangeBit := by simp [check_encode, hi]
    rw [← hrange]
    exact hrest.raiseCmdError (by rw [hrange]; decide)
  · exact hrest.of_omem (by simp) (by simp) (by simp)
      (State.writeResult_wf (s := { s with host := rest }) (dest_add_six_le_of_wellFormed hi) hm _ _)

end Sys2Proof.Machine
end

section
/-! PROOF. The tier never shows in a defined result (00_scope.md R9; 42_conversion.md R125). -/

namespace Sys2Proof.Machine

/-- Changing the tier commutes with the write phase. -/
theorem State.writeResult_withTier (s : State) (tier : MulTier) (d : BufAddr) (b : Bool) (r : Nat) :
    ({ s with cfg := { s.cfg with mulTier := tier } } : State).writeResult d b r =
      { s.writeResult d b r with cfg := { (s.writeResult d b r).cfg with mulTier := tier } } := by
  cases b <;> rfl

theorem getD_zero_lt_n {xs : List Nat} (h : ∀ x ∈ xs, x < Rom.n) (k : Nat) : xs.getD k 0 < Rom.n := by
  rw [List.getD_eq_getElem?_getD]
  cases hk : xs[k]? with
  | none => exact Nat.zero_lt_of_lt one_lt
  | some x => exact h x (List.mem_of_getElem? hk)

theorem montMul_tier_irrel (tier tier' : MulTier) {a b : Nat} (ha : a < Rom.n) (hb : b < Rom.n) :
    montMul tier a b = montMul tier' a b :=
  (montMul_eq tier ha hb).trans (montMul_eq tier' ha hb).symm

/-- On reduced operands every tier gives the same value (41_montmul.md R106; 42_conversion.md R125). -/
theorem opValue_tier_irrel (tier tier' : MulTier) (i : Instr) {xs : List Nat} (h : ∀ x ∈ xs, x < Rom.n) :
    opValue tier i xs = opValue tier' i xs := by
  cases i with
  | add _ _ _ => rfl
  | sub _ _ _ => rfl
  | mmul _ _ _ => exact montMul_tier_irrel _ _ (getD_zero_lt_n h 0) (getD_zero_lt_n h 1)
  | tomont _ _ => exact montMul_tier_irrel _ _ (getD_zero_lt_n h 0) r2_lt
  | tonorm _ _ => exact montMul_tier_irrel _ _ (getD_zero_lt_n h 0) one_lt

/-- Settles O46: both builds write `opValue`, which does not depend on the tier. -/
theorem tierDoesNotShow : Obligations.TierDoesNotShow := by
  intro i s tier xs hw hx hred
  refine ⟨_, exec_of_holds hw hx, ?_⟩
  rw [exec_of_holds (s := { s with cfg := { s.cfg with mulTier := tier } }) hw hx, State.writeResult_withTier,
    opValue_tier_irrel tier s.cfg.mulTier i hred]

end Sys2Proof.Machine
end

section
/-! SUPPORT. Decode and encode are inverse to each other (30_encoding.md R64, R65, R70). -/

namespace Sys2Proof

@[simp] theorem decode_encode (i : Instr) : decode (encode i) = .ok i := by
  cases i <;> simp [decode, encode, decodeBinary, decodeUnary]

/-- Bit `k` of a field of `w` put back in its place. -/
theorem getLsbD_field_shiftLeft (w : Word) (lo n : Nat) {k : Nat} (hk : k < 64) :
    ((w.extractLsb' lo n).setWidth 64 <<< lo).getLsbD k = (decide (lo ≤ k ∧ k < lo + n) && w.getLsbD k) := by
  simp only [BitVec.getLsbD_shiftLeft, BitVec.getLsbD_setWidth, BitVec.getLsbD_extractLsb', hk]
  by_cases hlo : lo ≤ k
  · simp [hlo, show k - lo < 64 by omega, show k - lo < n ↔ k < lo + n by omega, Nat.add_sub_cancel' hlo]
  · simp [hlo]

/-- A word whose reserved field is 0 is the OR of its other fields (30_encoding.md R61, R70). -/
theorem enc_fields {w : Word} (h : rsvField w = 0) :
    enc (opcField w) (dstField w) (srcaField w) (srcbField w) = w := by
  apply BitVec.eq_of_getLsbD_eq
  intro k hk
  have hopc : ((opcField w).setWidth 64).getLsbD k = (decide (k < 4) && w.getLsbD k) := by
    simp [opcField, hk]
  have hrsv : (decide (4 ≤ k ∧ k < 16) && w.getLsbD k) = false := by
    rw [← getLsbD_field_shiftLeft w 4 12 hk, ← rsvField, h]
    simp
  rw [enc, BitVec.getLsbD_or, BitVec.getLsbD_or, BitVec.getLsbD_or, hopc, dstField, srcaField, srcbField,
    getLsbD_field_shiftLeft w _ _ hk, getLsbD_field_shiftLeft w _ _ hk, getLsbD_field_shiftLeft w _ _ hk]
  cases hb : w.getLsbD k with
  | false => simp
  | true =>
    simp only [hb, Bool.and_true, decide_eq_false_iff_not] at hrsv
    simp only [Bool.and_true, Bool.or_eq_true, decide_eq_true_eq]
    omega

theorem decodeBinary_eq_ok_iff {mk : BufAddr → BufAddr → BufAddr → Instr} {w : Word} {i : Instr} :
    decodeBinary mk w = .ok i ↔ rsvField w = 0 ∧ mk (dstField w) (srcaField w) (srcbField w) = i := by
  unfold decodeBinary
  split
  next h => simp [h]
  next h => exact iff_of_false (by simp) (fun ⟨h0, _⟩ => h h0)

theorem decodeUnary_eq_ok_iff {mk : BufAddr → BufAddr → Instr} {w : Word} {i : Instr} :
    decodeUnary mk w = .ok i ↔ (rsvField w = 0 ∧ srcbField w = 0) ∧ mk (dstField w) (srcaField w) = i := by
  unfold decodeUnary
  split
  next h => simp [h]
  next h => exact iff_of_false (by simp) (fun ⟨h0, _⟩ => h h0)

/-- A word that decodes is the word of its command. -/
theorem encode_of_decode {w : Word} {i : Instr} (h : decode w = .ok i) : encode i = w := by
  have binary {o : BitVec 4} {mk : BufAddr → BufAddr → BufAddr → Instr} (ho : opcField w = o)
      (hmk : ∀ d a b, encode (mk d a b) = enc o d a b) (hd : decodeBinary mk w = .ok i) : encode i = w := by
    obtain ⟨hr, rfl⟩ := decodeBinary_eq_ok_iff.1 hd
    rw [hmk, ← ho, enc_fields hr]
  have unary {o : BitVec 4} {mk : BufAddr → BufAddr → Instr} (ho : opcField w = o)
      (hmk : ∀ d a, encode (mk d a) = enc o d a 0) (hd : decodeUnary mk w = .ok i) : encode i = w := by
    obtain ⟨⟨hr, hb⟩, rfl⟩ := decodeUnary_eq_ok_iff.1 hd
    rw [hmk, ← ho, ← hb, enc_fields hr]
  simp only [decode] at h
  split_ifs at h with h1 h2 h3 h4 h5
  · exact binary h1 (fun _ _ _ => rfl) h
  · exact binary h2 (fun _ _ _ => rfl) h
  · exact binary h3 (fun _ _ _ => rfl) h
  · exact unary h4 (fun _ _ => rfl) h
  · exact unary h5 (fun _ _ => rfl) h

/-- A word that decodes can only be illegal by its range (30_encoding.md R66 (d)). -/
theorem check_of_decode (n : Nat) {w : Word} {i : Instr} (h : decode w = .ok i) :
    check n w = if i.wellFormed n then 0 else rangeBit := by
  rw [← encode_of_decode h, check_encode]

end Sys2Proof
end

section
/-! PROOF. The host's operations, one step each (10_state.md R21, R23, R30; 60_exceptions.md R154 (b)). -/

namespace Sys2Proof.Machine

theorem perform_writeWord_of_lt {s : State} {k : Nat} (h : k < s.cfg.omemWords) (v : Word) :
    perform (.writeWord k v) s = .next { s with omem := s.omem.write k v } := if_pos h

theorem perform_writeWord_of_ge {s : State} {k : Nat} (h : s.cfg.omemWords ≤ k) (v : Word) :
    perform (.writeWord k v) s = .refused (.hostRange k) := if_neg (by omega)

theorem perform_readWord_of_some {s : State} {k : Nat} {v : Word} (h : k < s.cfg.omemWords)
    (hv : s.omem.read k = some v) : perform (.readWord k) s = .next (s.reply v) := by
  simp [perform, hostReadWord, h, hv]

theorem perform_readWord_of_none {s : State} {k : Nat} (h : k < s.cfg.omemWords)
    (hv : s.omem.read k = none) : perform (.readWord k) s = .fault (.uninitRead k) := by
  simp [perform, hostReadWord, h, hv]

theorem perform_readWord_of_ge {s : State} {k : Nat} (h : s.cfg.omemWords ≤ k) :
    perform (.readWord k) s = .refused (.hostRange k) := if_neg (by omega)

theorem perform_issue_encode (i : Instr) (s : State) : perform (.issue (encode i)) s = exec i s := by
  simp [perform, hostIssue]

theorem State.statusReg_lt (s : State) : s.statusReg.toNat < 8 :=
  Nat.lt_succ_of_le (by rw [State.statusReg, BitVec.toNat_and]; exact Nat.and_le_right)

/-- Settles O11: the placed word decodes to the command it encodes. -/
theorem stepAfterFetchWord : Obligations.StepAfterFetchWord := by
  intro s i h0
  have hw : BitVec.ofNat 64 ((encode i).toNat % 2 ^ 64) = encode i := by
    rw [Nat.mod_eq_of_lt (encode i).isLt, BitVec.ofNat_toNat, BitVec.setWidth_eq]
  rw [State.withFetchWord, hw, step_cons (s := s.issueNext (encode i)) h0 rfl]
  exact perform_issue_encode i s

/-- Settles O16, by read after write in OMEM. -/
theorem hostWriteSetsOneWord : Obligations.HostWriteSetsOneWord := by
  intro s k v rest h0 hs hk
  refine ⟨_, (step_cons h0 hs).trans (perform_writeWord_of_lt (s := { s with host := rest }) hk v),
    s.omem.read_write_same k v, fun j hj => s.omem.read_write_other hj v, ?_⟩
  exact ⟨rfl, rfl, rfl, rfl, rfl, rfl⟩

/-- Settles O17, by the two cases of the word's value. -/
theorem hostReadReturnsWord : Obligations.HostReadReturnsWord := by
  intro s k rest h0 hs hk
  rw [step_cons h0 hs]
  exact ⟨fun _ hv => perform_readWord_of_some (s := { s with host := rest }) hk hv,
    fun hv => perform_readWord_of_none (s := { s with host := rest }) hk hv⟩

/-- Settles O18: both accesses ask for k < OMEM_WORDS first. -/
theorem hostRangeRefused : Obligations.HostRangeRefused := by
  intro s k v rest h0 hk
  exact ⟨fun hs => (step_cons h0 hs).trans (perform_writeWord_of_ge (s := { s with host := rest }) hk v),
    fun hs => (step_cons h0 hs).trans (perform_readWord_of_ge (s := { s with host := rest }) hk)⟩

/-- Settles O19: both reads reply a register of the state, and STATUS reads through its mask. -/
theorem hostReadsStatusAndErrcmd : Obligations.HostReadsStatusAndErrcmd := by
  intro s rest h0
  exact ⟨fun hs => step_cons h0 hs, fun hs => step_cons h0 hs, s.statusReg_lt⟩

end Sys2Proof.Machine
end

section
/-! PROOF. What a step, and a run without Reset(), do to STATUS and ERRCMD (10_state.md R31, R32; 60_exceptions.md
R143, R144). -/

namespace Sys2Proof.Machine

/-- What recording the illegal word `w` does to STATUS and ERRCMD (60_exceptions.md R143). -/
structure RecordsIllegal (s t : State) (w : Word) : Prop where
  illegal   : check s.cfg.omemWords w ≠ 0
  statusReg : t.statusReg = s.statusReg ||| check s.cfg.omemWords w
  errcmd    : t.errcmd = if s.statusReg = 0 then w else s.errcmd

theorem recordsIllegal_raiseCmdError {s : State} {w : Word} (h : check s.cfg.omemWords w ≠ 0)
    (rest : List HostOp) :
    RecordsIllegal s (({ s with host := rest } : State).raiseCmdError (check s.cfg.omemWords w) w) w where
  illegal := h
  statusReg := by
    rw [State.raiseCmdError_statusReg, State.withHost_statusReg, s.statusReg_or_and_mask (check_and_mask _ w)]
  errcmd := State.raiseCmdError_errcmd _ _ w

theorem step_cfg {s t : State} (h : step s = .next t) : t.cfg = s.cfg := by
  obtain ⟨-, ⟨-, rfl⟩ | ⟨op, rest, -, hop⟩⟩ := step_cases h
  · rfl
  obtain ⟨k, v, -, -, rfl⟩ | ⟨v, -, rfl⟩ | ⟨-, rfl⟩ | ⟨w, -, -, rfl⟩ | ⟨w, i, -, -, -, rfl⟩ |
    ⟨w, i, xs, -, -, -, -, rfl⟩ := hop <;> simp

/-- A step moves the host's list on by one operation. -/
theorem step_host {s t : State} {op : HostOp} {rest : List HostOp} (h : step s = .next t)
    (hs : s.host = op :: rest) : t.host = rest := by
  obtain ⟨-, ⟨hnil, -⟩ | ⟨op', rest', hs', hop⟩⟩ := step_cases h
  · rw [hs] at hnil; cases hnil
  obtain ⟨-, rfl⟩ := List.cons.inj (hs.symm.trans hs')
  obtain ⟨k, v, -, -, rfl⟩ | ⟨v, -, rfl⟩ | ⟨-, rfl⟩ | ⟨w, -, -, rfl⟩ | ⟨w, i, -, -, -, rfl⟩ |
    ⟨w, i, xs, -, -, -, -, rfl⟩ := hop <;> simp

/-- Everything a step can do to STATUS and ERRCMD: Reset(), the record of an illegal word, or nothing. -/
theorem step_registers {s t : State} (h : step s = .next t) :
    (∃ rest, s.host = .reset :: rest) ∨
    (∃ w rest, s.host = .issue w :: rest ∧ RecordsIllegal s t w) ∨
    ((∀ w rest, s.host = .issue w :: rest → check s.cfg.omemWords w = 0) ∧
      t.statusReg = s.statusReg ∧ t.errcmd = s.errcmd) := by
  obtain ⟨-, ⟨hs, rfl⟩ | ⟨op, rest, hs, hop⟩⟩ := step_cases h
  · exact .inr (.inr ⟨by simp [hs], rfl, rfl⟩)
  obtain ⟨k, v, rfl, -, rfl⟩ | ⟨v, hop, rfl⟩ | ⟨rfl, rfl⟩ | ⟨w, rfl, ⟨e, hd⟩, rfl⟩ |
    ⟨w, i, rfl, hd, hi, rfl⟩ | ⟨w, i, xs, rfl, hd, hi, -, rfl⟩ := hop
  · exact .inr (.inr ⟨by simp [hs], rfl, rfl⟩)
  · refine .inr (.inr ⟨fun w r hw => ?_, rfl, rfl⟩)
    obtain ⟨rfl, -⟩ := List.cons.inj (hs.symm.trans hw)
    simp at hop
  · exact .inl ⟨rest, hs⟩
  · exact .inr (.inl ⟨w, rest, hs, recordsIllegal_raiseCmdError (check_ne_zero_of_decode_error _ hd) rest⟩)
  · have hrange : check s.cfg.omemWords w = rangeBit := by simp [check_of_decode _ hd, hi]
    rw [encode_of_decode hd, ← hrange]
    exact .inr (.inl ⟨w, rest, hs, recordsIllegal_raiseCmdError (by rw [hrange]; decide) rest⟩)
  · refine .inr (.inr ⟨fun w' r hw => ?_, by simp, by simp⟩)
    obtain ⟨hop, -⟩ := List.cons.inj (hs.symm.trans hw)
    cases hop
    simp [check_of_decode _ hd, hi]

/-- Settles O26: recording an illegal word only adds bits, and leaves ERRCMD where STATUS is not 0. -/
theorem statusIsSticky : Obligations.StatusIsSticky := by
  intro s t hstep hreset
  obtain ⟨rest, hs⟩ | ⟨w, rest, -, hrec⟩ | ⟨-, hst, herr⟩ := step_registers hstep
  · exact absurd hs (hreset rest)
  · rw [hrec.statusReg, hrec.errcmd]
    exact ⟨or_and_eq_of_and_eq (BitVec.and_self ..) _, fun hne => if_neg hne⟩
  · exact ⟨by rw [hst, BitVec.and_self], fun _ => herr⟩

/-- Settles O27, by what a step can do to the two registers. -/
theorem onlyIllegalOrResetChangesStatus : Obligations.OnlyIllegalOrResetChangesStatus := by
  intro s t hstep hne
  obtain hreset | ⟨w, rest, hs, hrec⟩ | ⟨-, hst, herr⟩ := step_registers hstep
  · exact .inl hreset
  · exact .inr ⟨w, rest, hs, hrec.illegal⟩
  · exact (hne.elim (· hst) (· herr)).elim

/-- Settles O53: where the invariant holds STATUS reads as it is stored. -/
theorem errcmdReadsIllegalWord : Obligations.ErrcmdReadsIllegalWord := by
  intro s hinv
  obtain ⟨-, -, hwired, hzero, hne⟩ := hinv
  rw [State.statusReg_eq_status hwired, BitVec.and_comm]
  exact ⟨hzero, hne⟩

/-- A run of one more step is a step and then the run from where it leads. -/
theorem run_succ_eq_next {n : Nat} {s t : State} (h : Sys2Proof.core.run (n + 1) s = .next t) :
    ∃ a, step s = .next a ∧ Sys2Proof.core.run n a = .next t := by
  have hc : Sys2Proof.core.step = step := rfl
  simp only [Host.Core.run, hc] at h
  cases hs : step s with
  | next a => exact ⟨a, rfl, by simpa [hs] using h⟩
  | fault f => simp [hs] at h
  | refused r => simp [hs] at h

theorem ne_reset_of_not_mem {op : HostOp} {ops tail : List HostOp} {s : State} (hs : s.host = op :: tail)
    (h : .reset ∉ op :: ops) : ∀ r, s.host ≠ .reset :: r := by
  rintro r hr
  obtain ⟨rfl, -⟩ := List.cons.inj (hs.symm.trans hr)
  simp at h

/-- Once STATUS is not 0, ERRCMD stays until a Reset() (10_state.md R32). -/
theorem run_errcmd_of_statusReg_ne_zero {ops rest : List HostOp} {s t : State} (hne : s.statusReg ≠ 0)
    (hs : s.host = ops ++ rest) (hreset : .reset ∉ ops)
    (hrun : Sys2Proof.core.run ops.length s = .next t) : t.errcmd = s.errcmd := by
  induction ops generalizing s with
  | nil => cases hrun; rfl
  | cons op ops ih =>
    obtain ⟨a, hstep, hrun⟩ := run_succ_eq_next hrun
    obtain ⟨hsticky, herr⟩ := statusIsSticky s a hstep (ne_reset_of_not_mem hs hreset)
    have hne' : a.statusReg ≠ 0 := fun h0 => hne (by simpa [h0] using hsticky.symm)
    rw [ih hne' (step_host hstep hs) (List.not_mem_of_not_mem_cons hreset) hrun, herr hne]

/-- Settles O54, by induction on the sequence: up to the first illegal word STATUS and ERRCMD are as they were, and
after it ERRCMD stays. -/
theorem errcmdCapturesFirstIllegal : Obligations.ErrcmdCapturesFirstIllegal := by
  intro ops rest s t hzero hs hreset hrun
  induction ops generalizing s with
  | nil => cases hrun; rfl
  | cons op ops ih =>
    obtain ⟨a, hstep, hrun'⟩ := run_succ_eq_next hrun
    have hnr := List.not_mem_of_not_mem_cons hreset
    have ha := step_host hstep hs
    obtain ⟨r, hr⟩ | ⟨w, r, hw, hrec⟩ | ⟨hlegal, hst, herr⟩ := step_registers hstep
    · exact absurd hr (ne_reset_of_not_mem hs hreset r)
    · obtain ⟨rfl, -⟩ := List.cons.inj (hs.symm.trans hw)
      have hne : a.statusReg ≠ 0 := by simpa [hrec.statusReg, hzero] using hrec.illegal
      rw [run_errcmd_of_statusReg_ne_zero hne ha hnr hrun', hrec.errcmd, if_pos hzero]
      rw [List.filterMap_cons_some (HostOp.command_issue w),
        List.find?_cons_of_pos (by simpa using hrec.illegal)]
      rfl
    · rw [ih a (hst.trans hzero) ha hnr hrun', step_cfg hstep, herr]
      cases hop : op.command with
      | none => rw [List.filterMap_cons_none hop]
      | some w =>
        obtain rfl := HostOp.command_eq_some.1 hop
        simp [hlegal w _ hs]

end Sys2Proof.Machine
end

section
/-! PROOF. Where a command stops: the first source word that holds no value (10_state.md R23; 60_exceptions.md R154
(a); log entry 15). -/

namespace Sys2Proof.Machine

/-- The indices of the words of the element at `b`, in order (20_memory.md R41). -/
def bufWords (b : BufAddr) : List Nat := (List.range 6).map (b.toNat + ·)

/-- OMEM word `k` holds no value (10_state.md R23). -/
def State.uninit (s : State) (k : Nat) : Bool := (s.omem.read k).isNone

theorem sourceWords_eq_flatMap_bufWords (i : Instr) : i.sourceWords = i.sources.flatMap bufWords := rfl

/-- A latch faults by the first of its words that holds no value. -/
theorem State.latch_error_iff_find? (s : State) (b : BufAddr) (k : Nat) :
    s.latch b = .error (.uninitRead k) ↔ (bufWords b).find? s.uninit = some k := by
  rw [State.latch_error_iff, bufWords, List.find?_map, Option.map_eq_some_iff]
  simp only [List.find?_range_eq_some, Function.comp_apply, List.mem_range, State.uninit, Option.isNone_iff_eq_none,
    Bool.not_eq_true', Option.isNone_eq_false_iff, Option.isSome_iff_ne_none]
  constructor
  · rintro ⟨i, hi, hk, hnone, hbefore⟩
    cases hk
    exact ⟨i, ⟨hnone, hi, hbefore⟩, rfl⟩
  · rintro ⟨i, ⟨hnone, hi, hbefore⟩, rfl⟩
    exact ⟨i, hi, rfl, hnone, hbefore⟩

theorem State.latch_ok_of_find?_eq_none {s : State} {b : BufAddr} (h : (bufWords b).find? s.uninit = none) :
    ∃ x, s.latch b = .ok x := by
  cases hl : s.latch b with
  | ok x => exact ⟨x, rfl⟩
  | error f =>
    obtain ⟨i, -, rfl, -⟩ := (s.latch_error_iff b f).1 hl
    rw [State.latch_error_iff_find?, h] at hl
    cases hl

/-- The latches of several buffers fault by the first of all their words that holds no value. -/
theorem State.latchAll_error_of_find? {s : State} {bs : List BufAddr} {k : Nat}
    (h : (bs.flatMap bufWords).find? s.uninit = some k) : s.latchAll bs = .error (.uninitRead k) := by
  induction bs with
  | nil => cases h
  | cons b bs ih =>
    rw [List.flatMap_cons, List.find?_append] at h
    rw [State.latchAll]
    cases hb : (bufWords b).find? s.uninit with
    | some j =>
      rw [hb, Option.some_or] at h
      cases h
      rw [(s.latch_error_iff_find? b k).2 hb]
    | none =>
      obtain ⟨x, hx⟩ := State.latch_ok_of_find?_eq_none hb
      rw [hb, Option.none_or] at h
      rw [hx, ih h]
      rfl

/-- Settles O30: the sources' words are those of its latches, in order. -/
theorem uninitReadNamesFirstWord : Obligations.UninitReadNamesFirstWord := by
  intro i s k hw hk
  rw [sourceWords_eq_flatMap_bufWords] at hk
  rw [exec_eq, if_pos hw, State.latchAll_error_of_find? hk]

end Sys2Proof.Machine
end

section
/-! PROOF. The ROM constants (10_state.md R25, R26, R28, R35). -/

namespace Sys2Proof.Machine

theorem corr_eq : Rom.corr = 2 ^ 384 - Rom.n := by
  have := n_add_corr
  omega

theorem n_mul_nprime_mod : Rom.n * Rom.nprime.toNat % 2 ^ 64 = 2 ^ 64 - 1 := by
  have := n_mul_nprime
  omega

theorem rInv_mul_r : Rom.rInv * 2 ^ 384 % Rom.n = 1 := by
  rw [Nat.mul_comm]
  exact r_mul_rInv

/-- Settles O47, from what is known of CORR, N' and R⁻¹; the other clauses are closed numerals. -/
theorem romConstantFacts : Obligations.RomConstantFacts := by
  refine ⟨corr_eq, ?r2, n_mul_nprime_mod, ?bits_ge, ?bits_lt, ?no_ones_word, ?odd, ?rModN, ?rInv, rInv_mul_r⟩ <;>
    decide +kernel

end Sys2Proof.Machine
end

section
/-! PROOF. What a command does to OMEM, in range and out of it, and that a later access sees it (20_memory.md R41 to
R43, R46, R47). -/

namespace Sys2Proof.Machine

/-- Settles O25: the exception records the RANGE bit, which is one of the STATUS bits that are not hard-wired. -/
theorem outOfRangeRaisesRange : Obligations.OutOfRangeRaisesRange := by
  intro i s hw
  have hexec : exec i s = .next (s.raiseCmdError rangeBit (encode i)) := by simp [exec_eq, hw]
  have hstatus : (s.raiseCmdError rangeBit (encode i)).statusReg = s.statusReg ||| rangeBit := by
    rw [State.raiseCmdError_statusReg, s.statusReg_or_and_mask (by decide)]
  exact ⟨_, hexec, hstatus, by simp⟩

/-- The write phase draws at most one free value (40_addsub.md R80). -/
theorem State.writeResult_draws_le_one (s : State) (d : BufAddr) (b : Bool) (r : Nat) :
    (s.writeResult d b r).draws = s.draws ∨ (s.writeResult d b r).draws = s.draws + 1 := by
  cases b <;> simp

/-- Settles O32, by what a command may answer: the range exception, which touches no word, or a written result. -/
theorem commandFrame : Obligations.CommandFrame := by
  intro i s t ht
  obtain ⟨hw, he⟩ | ⟨-, f, -, he⟩ | ⟨hw, xs, -, he⟩ := exec_cases i s
  · cases he.symm.trans ht
    exact ⟨fun h => absurd (hw.symm.trans h) (by decide), fun _ => by simp⟩
  · cases he.symm.trans ht
  · cases he.symm.trans ht
    exact ⟨fun _ => ⟨s.writeResult_sameOutside _ _ _, s.writeResult_sameControl _ _ _,
      s.writeResult_draws_le_one _ _ _⟩, fun h => absurd (hw.symm.trans h) (by decide)⟩

/-- A step that returns nothing and after which OMEM word `k` holds `v`, and then a host read of `k`: the host gets
`v` (20_memory.md R47). -/
theorem run_step_then_read {s a : State} {k : Nat} {v : Word} {op : HostOp} {rest : List HostOp}
    (hstep : step s = .next a) (hs : s.host = op :: .readWord k :: rest) (hk : k < s.cfg.omemWords)
    (hv : a.omem.read k = some v) (hreplies : a.replies = s.replies) :
    ∃ u : State, Sys2Proof.core.run 2 s = .next u ∧ u.replies = s.replies ++ [v] ∧ u.host = rest := by
  have hcfg : a.cfg = s.cfg := step_cfg hstep
  have hshared : a.cfg.sharedOmem = false := by rw [hcfg]; exact (step_cases hstep).1
  have hread : step a = .next (({ a with host := rest } : State).reply v) := by
    rw [step_cons hshared (step_host hstep hs)]
    exact perform_readWord_of_some (s := { a with host := rest }) (by rw [hcfg]; exact hk) hv
  exact ⟨_, run_two hstep hread, by simp [hreplies], rfl⟩

/-- Settles O21: the host's write leaves `v` in the word that the next step reads, and returns nothing itself. -/
theorem writeThenReadReturns : Obligations.WriteThenReadReturns := by
  intro s k v rest h0 hk hs
  obtain ⟨a, hstep, hv, -, -, -, -, hreplies, -⟩ := hostWriteSetsOneWord s k v _ h0 hs hk
  exact run_step_then_read hstep hs hk hv hreplies

/-- Settles O22: the command leaves the element's word `j` in the word that the next step reads, and by its frame
returns nothing itself. -/
theorem commandThenReadReturns : Obligations.CommandThenReadReturns := by
  intro s t w i j v rest h0 hd hw hj hs ht hv
  have hstep : step s = .next t := by
    rw [step_cons h0 hs, ← encode_of_decode hd, perform_issue_encode, ht]
  have hk : i.dest.toNat + j < s.cfg.omemWords := by
    have := dest_add_six_le_of_wellFormed hw
    omega
  obtain ⟨-, hcontrol, -⟩ := (commandFrame i _ t ht).1 hw
  exact run_step_then_read hstep hs hk (hv.2 j hj) hcontrol.replies

/-- Elements of buffers of which no word lies in the written buffer are kept. -/
theorem holds_sources_of_sameOutside {s t : State} {d : BufAddr} {bs : List BufAddr} {xs : List Nat}
    (h : SameOutside d s t) (hd : ∀ k ∈ bs.flatMap bufWords, ¬ InBuf d k) (hx : List.Forall₂ s.Holds bs xs) :
    List.Forall₂ t.Holds bs xs := by
  have hapart : ∀ b ∈ bs, ∀ j < 6, ¬ InBuf d (b.toNat + j) := fun b hb j hj =>
    hd _ (List.mem_flatMap.2 ⟨b, hb, List.mem_map_of_mem (List.mem_range.2 hj)⟩)
  exact ((List.forall₂_and_left bs xs).2 ⟨hapart, hx⟩).imp fun _ _ ⟨hb, hx⟩ => hx.of_sameOutside h hb

/-- Writing a result a second time changes no word. -/
theorem State.writeResult_twice_read (s : State) (d : BufAddr) (r k : Nat) :
    ((s.writeResult d true r).writeResult d true r).omem.read k = (s.writeResult d true r).omem.read k := by
  show ((s.memWrite d.toNat 6 r).memWrite d.toNat 6 r).omem.read k = (s.memWrite d.toNat 6 r).omem.read k
  by_cases hk : InBuf d k
  · rw [State.memWrite_read, State.memWrite_read, if_pos hk, if_pos hk]
  · rw [State.memWrite_read, if_neg hk]

/-- Settles O36: the first issue leaves the sources and the build, so the second writes the same value over it. -/
theorem reissueWritesSameResult : Obligations.ReissueWritesSameResult := by
  intro i s xs hw hx hred hapart
  have hall : xs.all reduced = true := by simpa [reduced] using hred
  have hfirst := exec_of_holds hw hx
  rw [hall] at hfirst
  obtain ⟨houtside, hcontrol, -⟩ := (commandFrame i s _ hfirst).1 hw
  have hsecond := exec_of_holds (by rw [hcontrol.cfg]; exact hw)
    (holds_sources_of_sameOutside houtside hapart hx)
  rw [hall, hcontrol.cfg] at hsecond
  exact ⟨_, _, hfirst, hsecond, fun k => s.writeResult_twice_read _ _ k, State.writeResult_sameControl _ _ _ _⟩

end Sys2Proof.Machine
end

section
/-! PROOF. The command format: the masks, the legality check and the encoding function as arithmetic
(30_encoding.md R61, R64, R66, R67, R70). -/

namespace Sys2Proof

/-- Settles O1: the fields of an encoded command are its own. -/
theorem decodeOfEncode : Obligations.DecodeOfEncode := decode_encode

/-- Settles O2: a word that decodes has reserved fields 0, so it is the OR of its other fields. -/
theorem encodeOfDecode : Obligations.EncodeOfDecode := fun _ _ => encode_of_decode

/-! ### Match and mask (30_encoding.md R64) -/

theorem decode_eq_ok_iff {w : Word} {i : Instr} : decode w = .ok i ↔ encode i = w :=
  ⟨encode_of_decode, fun h => h ▸ decode_encode i⟩

/-- A mask of ones over a field leaves the field as it is. -/
theorem extractLsb'_of_and_eq {w m v : Word} {lo n : Nat} (h : w &&& m = v)
    (hm : m.extractLsb' lo n = BitVec.allOnes n) : w.extractLsb' lo n = v.extractLsb' lo n := by
  rw [← h, BitVec.extractLsb'_and, hm, BitVec.and_allOnes]

theorem setWidth_eq_enc (o : BitVec 4) : o.setWidth 64 = enc o 0 0 0 := by
  simp [enc]

/-- The mask of a binary command takes OPC and RSV. -/
theorem and_low_eq_iff {w : Word} (o : BitVec 4) :
    w &&& 0xffff#64 = o.setWidth 64 ↔ enc o (dstField w) (srcaField w) (srcbField w) = w := by
  constructor
  · intro h
    rw [setWidth_eq_enc] at h
    have ho : opcField w = o := (extractLsb'_of_and_eq h (by decide)).trans (opcField_enc o 0 0 0)
    have hr : rsvField w = 0 := (extractLsb'_of_and_eq h (by decide)).trans (rsvField_enc o 0 0 0)
    rw [← ho, enc_fields hr]
  · intro h
    rw [← h, Laws.EncodeMatches.enc_and_low]

/-- The mask of a unary command takes OPC, RSV and SRCB. -/
theorem and_high_eq_iff {w : Word} (o : BitVec 4) :
    w &&& 0xffff00000000ffff#64 = o.setWidth 64 ↔ enc o (dstField w) (srcaField w) 0 = w := by
  constructor
  · intro h
    rw [setWidth_eq_enc] at h
    have ho : opcField w = o := (extractLsb'_of_and_eq h (by decide)).trans (opcField_enc o 0 0 0)
    have hr : rsvField w = 0 := (extractLsb'_of_and_eq h (by decide)).trans (rsvField_enc o 0 0 0)
    have hb : srcbField w = 0 := (extractLsb'_of_and_eq h (by decide)).trans (srcbField_enc o 0 0 0)
    rw [← ho, ← hb, enc_fields hr]
  · intro h
    rw [← h, Laws.EncodeMatches.enc_and_high]

theorem ofNat_div_eq_fields (w : Word) :
    BitVec.ofNat 16 (w.toNat / 2 ^ 16) = dstField w ∧ BitVec.ofNat 16 (w.toNat / 2 ^ 32) = srcaField w ∧
      BitVec.ofNat 16 (w.toNat / 2 ^ 48) = srcbField w := by
  obtain ⟨-, -, hd, ha, hb⟩ := fields_toNat w
  refine ⟨?_, ?_, ?_⟩ <;> apply BitVec.eq_of_toNat_eq <;> rw [BitVec.toNat_ofNat]
  · exact hd.symm
  · exact ha.symm
  · omega

/-- A match value stands in OPC and RSV alone. -/
theorem matchMask_fst_of_matches {w : Word} {i : Instr} (h : w &&& (matchMask i).2 = (matchMask i).1) :
    (matchMask i).1 = w &&& 0xffff#64 := by
  have hmask : (matchMask i).2 &&& 0xffff#64 = 0xffff#64 := by
    cases i <;> simp only [matchMask] <;> decide
  have hmatch : (matchMask i).1 &&& 0xffff#64 = (matchMask i).1 := by
    cases i <;> simp only [matchMask] <;> decide
  rw [← hmatch, ← h, BitVec.and_assoc, hmask]

/-- The match value says whether the command is unary, which decides the mask. -/
theorem matchMask_snd (i : Instr) :
    (matchMask i).2 = if (matchMask i).1.ult 4#64 then 0xffff#64 else 0xffff00000000ffff#64 := by
  cases i <;> rfl

/-- Settles O3: under its mask a word matches when it is the word of its own fields with that opcode, and a match
value is the word's low half-word. -/
theorem matchMaskDecides : Obligations.MatchMaskDecides := by
  intro w
  obtain ⟨hd, ha, hb⟩ := ofNat_div_eq_fields w
  simp only [hd, ha, hb, decode_eq_ok_iff, encode]
  refine ⟨and_low_eq_iff 1#4, and_low_eq_iff 2#4, and_low_eq_iff 3#4, and_high_eq_iff 4#4, and_high_eq_iff 5#4, ?_⟩
  intro i j hi hj
  have hfst : (matchMask i).1 = (matchMask j).1 :=
    (matchMask_fst_of_matches hi).trans (matchMask_fst_of_matches hj).symm
  exact Prod.ext hfst (by rw [matchMask_snd, matchMask_snd, hfst])

/-! ### Legality (30_encoding.md R66, R67) -/

theorem isBinaryOpc_iff (o : BitVec 4) : isBinaryOpc o = true ↔ 1 ≤ o.toNat ∧ o.toNat ≤ 3 := by
  revert o; decide

theorem isUnaryOpc_iff (o : BitVec 4) : isUnaryOpc o = true ↔ 4 ≤ o.toNat ∧ o.toNat ≤ 5 := by
  revert o; decide

theorem ne_zero_iff_toNat_ne_zero {n : Nat} (x : BitVec n) : x ≠ 0 ↔ x.toNat ≠ 0 :=
  BitVec.toNat_eq.not

/-- RSVNZ and RANGE are different STATUS bits, so raising both adds them up. -/
theorem rsvnzBit_or_rangeBit_eq_ofNat (P Q : Prop) [Decidable P] [Decidable Q] :
    ((if P then rsvnzBit else 0) ||| (if Q then 0 else rangeBit)) =
      BitVec.ofNat 64 ((if P then 2 else 0) + (if ¬ Q then 4 else 0)) := by
  by_cases hP : P <;> by_cases hQ : Q <;> simp [hP, hQ, rsvnzBit, rangeBit]

/-- The used buffers of R66: SRCB is one of them in a binary command only. -/
theorem used_out_of_range_iff (n : Nat) (d a b : BufAddr) (unary : Bool) :
    ¬ ([d, a] ++ if unary then [] else [b]).all (bufInRange n) = true ↔
      n < d.toNat + 6 ∨ n < a.toNat + 6 ∨ (unary = false ∧ n < b.toNat + 6) := by
  cases unary <;> simp [bufInRange] <;> omega

/-- Settles O4, by the two kinds of opcode: an assigned one raises RSVNZ and RANGE, each where it applies. -/
theorem checkByArithmetic : Obligations.CheckByArithmetic := by
  intro n w
  obtain ⟨ho, hr, hd, ha, hb⟩ := fields_toNat w
  have hbin := isBinaryOpc_iff (opcField w)
  have hun := isUnaryOpc_iff (opcField w)
  simp only [← ho, ← hr, ← hd, ← ha, ← hb]
  constructor
  · intro h
    exact check_of_unassigned_opc n (Bool.eq_false_iff.2 fun h1 => by have := hbin.1 h1; omega)
      (Bool.eq_false_iff.2 fun h1 => by have := hun.1 h1; omega)
  · intro h1 h5
    have hassigned : (isBinaryOpc (opcField w) || isUnaryOpc (opcField w)) = true := by
      rw [Bool.or_eq_true, hbin, hun]; omega
    have hunary : isUnaryOpc (opcField w) = true ↔ 4 ≤ (opcField w).toNat := by
      rw [hun]; omega
    have hbinary : isUnaryOpc (opcField w) = false ↔ (opcField w).toNat ≤ 3 := by
      rw [Bool.eq_false_iff, ne_eq, hunary]; omega
    simp only [check, if_pos hassigned, rsvnzBit_or_rangeBit_eq_ofNat, used_out_of_range_iff]
    simp only [ne_zero_iff_toNat_ne_zero, hunary, hbinary]

/-- Settles O5: a word that decodes is illegal exactly by its range, and any other always. -/
theorem everyWordLegalOrIllegal : Obligations.EveryWordLegalOrIllegal := by
  intro n w
  cases hd : decode w with
  | error e => exact .inr ⟨by simp, check_ne_zero_of_decode_error n hd⟩
  | ok i =>
    rw [check_of_decode n hd]
    cases hw : i.wellFormed n with
    | true =>
      refine .inl ⟨⟨i, ⟨rfl, hw, encode_of_decode hd⟩, ?_⟩, rfl⟩
      rintro j ⟨hj, -, -⟩
      exact (Except.ok.inj hj).symm
    | false =>
      refine .inr ⟨?_, by decide⟩
      rintro ⟨j, hj, hjw⟩
      rw [Except.ok.inj hj, hjw] at hw
      cases hw

/-! ### The encoding function (30_encoding.md R70) -/

/-- The fields of `enc` do not overlap, so their OR is their sum. -/
theorem enc_toNat (o : BitVec 4) (d a b : BufAddr) :
    (enc o d a b).toNat = o.toNat + d.toNat * 2 ^ 16 + a.toNat * 2 ^ 32 + b.toNat * 2 ^ 48 := by
  obtain ⟨ho, hr, hd, ha, hb⟩ := fields_toNat (enc o d a b)
  simp only [opcField_enc, rsvField_enc, dstField_enc, srcaField_enc, srcbField_enc] at ho hr hd ha hb
  have h0 : (0 : BitVec 12).toNat = 0 := rfl
  omega

/-- Settles O6: the sum of the fields, with no SRCB term in the unary form. -/
theorem encodeIsFieldSum : Obligations.EncodeIsFieldSum := by
  refine ⟨fun d a b => ⟨enc_toNat _ d a b, enc_toNat _ d a b, enc_toNat _ d a b, ?_, ?_⟩, by decide⟩
  · simpa [encode] using enc_toNat 4#4 d a 0
  · simpa [encode] using enc_toNat 5#4 d a 0

/-- Settles O7: the decoder is run on the eight words. -/
theorem writtenOutWordsDecode : Obligations.WrittenOutWordsDecode := by
  unfold Obligations.WrittenOutWordsDecode
  decide

end Sys2Proof
end

section
/-! PROOF. A step that issues a command word (30_encoding.md R60; 10_state.md R30). -/

namespace Sys2Proof.Machine

theorem perform_issue_of_decode {w : Word} {i : Instr} (h : decode w = .ok i) (s : State) :
    perform (.issue w) s = exec i s := by
  simp [perform, hostIssue, h]

/-- Settles O10: the step performs the issue. -/
theorem stepRunsDecodedCommand : Obligations.StepRunsDecodedCommand :=
  fun _ _ _ _ h0 hs hd => (step_cons h0 hs).trans (perform_issue_of_decode hd _)

/-- Settles O12: the first word of a placed program heads the host's list, and the rest of the program follows it. -/
theorem programIssuedInOrder : Obligations.ProgramIssuedInOrder :=
  fun s w ws h0 => step_cons (s := s.withProgram (w :: ws)) h0 (s.withProgram_host (w :: ws))

end Sys2Proof.Machine
end

section
/-! PROOF. The assembler reads the canonical text of every command and of every raw word (30_encoding.md R69; the
blanks and digits of the text are log entry 13). -/

namespace Sys2Proof.Machine.Asm

/-! ### Decimal numbers -/

/-- A number's text: at least one character, and decimal digits only. -/
def IsNumeral (l : List Char) : Prop := l ≠ [] ∧ ∀ c ∈ l, c.isDigit = true

theorem digitVal_digitChar {d : Nat} (h : d < 10) : digitVal 10 (digitChar d) = some d := by
  revert d; decide

theorem isDigit_digitChar {d : Nat} (h : d < 10) : (digitChar d).isDigit = true := by
  revert d; decide

theorem isDigit_of_mem_decimal {n v : Nat} {acc : List Char} (hacc : ∀ c ∈ acc, c.isDigit = true) :
    ∀ c ∈ decimal n v acc, c.isDigit = true := by
  induction n generalizing v acc with
  | zero => exact hacc
  | succ n ih =>
    rw [decimal]
    split
    next hv => exact List.forall_mem_cons.2 ⟨isDigit_digitChar hv, hacc⟩
    next => exact ih (List.forall_mem_cons.2 ⟨isDigit_digitChar (Nat.mod_lt v (by decide)), hacc⟩)

theorem decimal_ne_nil_of_ne_nil (n v : Nat) {acc : List Char} (hacc : acc ≠ []) : decimal n v acc ≠ [] := by
  induction n generalizing v acc with
  | zero => exact hacc
  | succ n ih =>
    rw [decimal]
    split
    next => exact List.cons_ne_nil _ _
    next => exact ih _ (List.cons_ne_nil _ _)

theorem isNumeral_decimal (n v : Nat) : IsNumeral (decimal (n + 1) v []) := by
  refine ⟨?_, isDigit_of_mem_decimal (by simp)⟩
  rw [decimal]
  split
  next => exact List.cons_ne_nil _ _
  next => exact decimal_ne_nil_of_ne_nil n _ (List.cons_ne_nil _ _)

/-- Reading the digits written gives the number back. -/
theorem digitsVal_decimal {n v : Nat} (h : v < 10 ^ n) (acc : List Char) :
    digitsVal 10 0 (decimal n v acc) = digitsVal 10 v acc := by
  induction n generalizing v acc with
  | zero => rw [decimal, show v = 0 by omega]
  | succ n ih =>
    rw [decimal]
    split
    next hv => simp [digitsVal, digitVal_digitChar hv]
    next =>
      rw [ih (by omega), digitsVal, digitVal_digitChar (Nat.mod_lt v (by decide))]
      simp only [Nat.div_add_mod']

/-- Decimal digits do not start with `0x`. -/
theorem parseNat_of_isNumeral {l : List Char} (h : IsNumeral l) : parseNat l = digitsVal 10 0 l := by
  obtain ⟨hne, hd⟩ := h
  unfold parseNat
  split
  next => exact absurd rfl hne
  next => exact absurd (hd 'x' (by simp)) (by decide)
  next => rfl

theorem parseBelow_decimal {n v bound : Nat} (hn : v < 10 ^ (n + 1)) (hb : v < bound) :
    parseBelow bound (decimal (n + 1) v []) = some v := by
  rw [parseBelow, parseNat_of_isNumeral (isNumeral_decimal n v), digitsVal_decimal hn, digitsVal]
  simp [hb]

theorem isNumeral_addrText (b : BufAddr) : IsNumeral (addrText b) := isNumeral_decimal 4 b.toNat

@[simp] theorem parseAddr_addrText (b : BufAddr) : parseAddr (addrText b) = some b := by
  have hb := b.isLt
  rw [parseAddr, addrText, parseBelow_decimal (by omega) hb]
  simp

/-! ### Blanks, commas and comments -/

theorem ne_of_isDigit {c x : Char} (h : c.isDigit = true) (hx : x.isDigit = false) : c ≠ x := by
  rintro rfl
  simp [h] at hx

theorem isBlank_of_isDigit {c : Char} (h : c.isDigit = true) : isBlank c = false := by
  simp [isBlank, ne_of_isDigit h (x := ' ') (by decide), ne_of_isDigit h (x := '\t') (by decide)]

theorem trim_eq_rdropWhile (l : List Char) : trim l = (l.dropWhile isBlank).rdropWhile isBlank := rfl

/-- A text with no blank at either end is its own trimming. -/
theorem trim_eq_self {l : List Char} (hfirst : ∀ c ∈ l.head?, isBlank c = false)
    (hlast : ∀ c ∈ l.getLast?, isBlank c = false) : trim l = l := by
  have hd : l.dropWhile isBlank = l := by
    cases l with
    | nil => rfl
    | cons c l => exact List.dropWhile_cons_of_neg (by simp [hfirst c rfl])
  rw [trim_eq_rdropWhile, hd, List.rdropWhile_eq_self_iff]
  intro hl
  simp [hlast _ (List.getLast?_eq_getLast_of_ne_nil hl)]

theorem trim_space_cons (l : List Char) : trim (' ' :: l) = trim l := rfl

theorem trim_of_isNumeral {l : List Char} (h : IsNumeral l) : trim l = l :=
  trim_eq_self (fun c hc => isBlank_of_isDigit (h.2 c (List.mem_of_mem_head? hc)))
    (fun c hc => isBlank_of_isDigit (h.2 c (List.mem_of_mem_getLast? hc)))

/-- Text with no comma goes to the first of the pieces that follow. -/
theorem splitComma_append {l : List Char} (h : ∀ c ∈ l, c ≠ ',') {r w : List Char} {ws : List (List Char)}
    (hr : splitComma r = w :: ws) : splitComma (l ++ r) = (l ++ w) :: ws := by
  induction l with
  | nil => exact hr
  | cons c cs ih =>
    obtain ⟨hc, hcs⟩ := List.forall_mem_cons.1 h
    rw [List.cons_append, splitComma, if_neg hc, ih hcs]
    rfl

/-! ### A line in canonical form -/

/-- The operand texts with a comma and a space between them. -/
def joinOperands (ops : List (List Char)) : List Char := [',', ' '].intercalate ops

/-- A mnemonic, a space and the operands. -/
def lineText (mnemonic : List Char) (ops : List (List Char)) : List Char := mnemonic ++ ' ' :: joinOperands ops

@[simp] theorem joinOperands_singleton (d : List Char) : joinOperands [d] = d := List.intercalate_singleton

@[simp] theorem joinOperands_cons_cons (d e : List Char) (ds : List (List Char)) :
    joinOperands (d :: e :: ds) = d ++ ',' :: ' ' :: joinOperands (e :: ds) := by
  rw [joinOperands, List.intercalate_cons_cons]
  simp [joinOperands]

section CanonicalLine

variable {d : List Char} {ds : List (List Char)}

theorem comma_not_mem_of_isNumeral (h : IsNumeral d) : ∀ c ∈ d, c ≠ ',' :=
  fun c hc => ne_of_isDigit (h.2 c hc) (by decide)

theorem mem_joinOperands (h : ∀ l ∈ d :: ds, IsNumeral l) :
    ∀ c ∈ joinOperands (d :: ds), c.isDigit = true ∨ c = ',' ∨ c = ' ' := by
  induction ds generalizing d with
  | nil =>
    intro c hc
    rw [joinOperands_singleton] at hc
    exact .inl ((h d (by simp)).2 c hc)
  | cons e ds ih =>
    obtain ⟨hd, hrest⟩ := List.forall_mem_cons.1 h
    intro c hc
    simp only [joinOperands_cons_cons, List.mem_append, List.mem_cons] at hc
    rcases hc with hc | rfl | rfl | hc
    · exact .inl (hd.2 c hc)
    · simp
    · simp
    · exact ih hrest c hc

theorem head?_joinOperands (h : ∀ l ∈ d :: ds, IsNumeral l) :
    ∃ c, (joinOperands (d :: ds)).head? = some c ∧ c.isDigit = true := by
  obtain ⟨hne, hdigit⟩ := h d (by simp)
  obtain ⟨c, cs, rfl⟩ := List.exists_cons_of_ne_nil hne
  refine ⟨c, ?_, hdigit c (by simp)⟩
  cases ds <;> simp

theorem getLast?_joinOperands (h : ∀ l ∈ d :: ds, IsNumeral l) :
    ∃ c, (joinOperands (d :: ds)).getLast? = some c ∧ c.isDigit = true := by
  induction ds generalizing d with
  | nil =>
    obtain ⟨hne, hdigit⟩ := h d (by simp)
    rw [joinOperands_singleton]
    exact ⟨_, List.getLast?_eq_getLast_of_ne_nil hne, hdigit _ (List.getLast_mem hne)⟩
  | cons e ds ih =>
    obtain ⟨c, hc, hdigit⟩ := ih (List.forall_mem_cons.1 h).2
    refine ⟨c, ?_, hdigit⟩
    rw [joinOperands_cons_cons]
    simp [List.getLast?_append, List.getLast?_cons, hc]

theorem trim_joinOperands (h : ∀ l ∈ d :: ds, IsNumeral l) :
    trim (joinOperands (d :: ds)) = joinOperands (d :: ds) := by
  obtain ⟨c, hc, hcdigit⟩ := head?_joinOperands h
  obtain ⟨e, he, hedigit⟩ := getLast?_joinOperands h
  apply trim_eq_self
  · rw [hc]; rintro _ ⟨⟩; exact isBlank_of_isDigit hcdigit
  · rw [he]; rintro _ ⟨⟩; exact isBlank_of_isDigit hedigit

/-- Each operand comes back with the space before it. -/
theorem splitComma_space_joinOperands (h : ∀ l ∈ d :: ds, IsNumeral l) :
    splitComma (' ' :: joinOperands (d :: ds)) = (d :: ds).map (' ' :: ·) := by
  induction ds generalizing d with
  | nil =>
    have hcomma : ∀ c ∈ ' ' :: d, c ≠ ',' :=
      List.forall_mem_cons.2 ⟨by decide, comma_not_mem_of_isNumeral (h d (by simp))⟩
    simpa using splitComma_append hcomma (r := []) rfl
  | cons e ds ih =>
    obtain ⟨hd, hrest⟩ := List.forall_mem_cons.1 h
    have hcomma : ∀ c ∈ ' ' :: d, c ≠ ',' :=
      List.forall_mem_cons.2 ⟨by decide, comma_not_mem_of_isNumeral hd⟩
    have hsplit : splitComma (',' :: ' ' :: joinOperands (e :: ds)) = [] :: (e :: ds).map (' ' :: ·) := by
      rw [splitComma, if_pos rfl, ih hrest]
    simpa using splitComma_append hcomma hsplit

theorem operandTexts_space_joinOperands (h : ∀ l ∈ d :: ds, IsNumeral l) :
    operandTexts (' ' :: joinOperands (d :: ds)) = d :: ds := by
  have hne : joinOperands (d :: ds) ≠ [] := by
    obtain ⟨c, hc, -⟩ := head?_joinOperands h
    intro h0
    simp [h0] at hc
  rw [operandTexts, trim_space_cons, trim_joinOperands h, if_neg hne, splitComma_space_joinOperands h, List.map_map]
  exact (List.map_congr_left fun l hl => trim_of_isNumeral (h l hl)).trans (List.map_id _)

/-- A word a mnemonic can be: not empty, and without blanks and comments. -/
def IsPlainWord (m : List Char) : Prop := m ≠ [] ∧ ∀ c ∈ m, isBlank c = false ∧ c ≠ ';'

theorem stripComment_lineText {m : List Char} (hm : IsPlainWord m) (h : ∀ l ∈ d :: ds, IsNumeral l) :
    stripComment (lineText m (d :: ds)) = lineText m (d :: ds) := by
  rw [stripComment, List.takeWhile_eq_self_iff]
  intro c hc
  rw [bne_iff_ne]
  rw [lineText, List.mem_append, List.mem_cons] at hc
  rcases hc with hc | rfl | hc
  · exact (hm.2 c hc).2
  · decide
  · rcases mem_joinOperands h c hc with hc | rfl | rfl
    · exact ne_of_isDigit hc (by decide)
    · decide
    · decide

theorem trim_lineText {m : List Char} (hm : IsPlainWord m) (h : ∀ l ∈ d :: ds, IsNumeral l) :
    trim (lineText m (d :: ds)) = lineText m (d :: ds) := by
  obtain ⟨c, cs, rfl⟩ := List.exists_cons_of_ne_nil hm.1
  obtain ⟨e, he, hedigit⟩ := getLast?_joinOperands h
  have hlast : (lineText (c :: cs) (d :: ds)).getLast? = some e := by
    simp [lineText, List.getLast?_append, List.getLast?_cons, he]
  apply trim_eq_self
  · rintro _ ⟨⟩; exact (hm.2 c (by simp)).1
  · rw [hlast]; rintro _ ⟨⟩; exact isBlank_of_isDigit hedigit

/-- A canonical line is read as its mnemonic and its operands. -/
theorem assembleLine_lineText {m : List Char} (hm : IsPlainWord m) (h : ∀ l ∈ d :: ds, IsNumeral l) :
    assembleLine (lineText m (d :: ds)) = (asmCommand m (d :: ds)).map some := by
  have hnonblank : ∀ c ∈ m, (!isBlank c) = true := fun c hc => by rw [(hm.2 c hc).1]; rfl
  have hword : (lineText m (d :: ds)).takeWhile (! isBlank ·) = m := by
    rw [lineText, List.takeWhile_append_of_pos hnonblank]
    exact List.append_nil m
  have hrest : (lineText m (d :: ds)).dropWhile (! isBlank ·) = ' ' :: joinOperands (d :: ds) := by
    rw [lineText, List.dropWhile_append_of_pos hnonblank]
    rfl
  have hne : lineText m (d :: ds) ≠ [] := List.append_ne_nil_of_left_ne_nil hm.1 _
  simp only [assembleLine, stripComment_lineText hm h, trim_lineText hm h, if_neg hne, hword, hrest,
    operandTexts_space_joinOperands h]

end CanonicalLine

/-! ### The canonical texts -/

/-- The mnemonic in upper case (30_encoding.md R69). -/
def mnemonic : Instr → List Char
  | .add _ _ _ => ['A', 'D', 'D']
  | .sub _ _ _ => ['S', 'U', 'B']
  | .mmul _ _ _ => ['M', 'M', 'U', 'L']
  | .tomont _ _ => ['T', 'O', 'M', 'O', 'N', 'T']
  | .tonorm _ _ => ['T', 'O', 'N', 'O', 'R', 'M']

theorem isPlainWord_mnemonic (i : Instr) : IsPlainWord (mnemonic i) := by
  cases i <;> simp [IsPlainWord, mnemonic, isBlank]

theorem text_eq_lineText (i : Instr) : text i = lineText (mnemonic i) ((i.dest :: i.sources).map addrText) := by
  cases i <;> simp [text, lineText, mnemonic, Instr.dest, Instr.sources]

theorem asmCommand_mnemonic (i : Instr) :
    asmCommand (mnemonic i) ((i.dest :: i.sources).map addrText) = .ok (encode i) := by
  have hupper : upper (mnemonic i) = mnemonic i := by cases i <;> rfl
  rw [asmCommand, hupper]
  cases i <;> simp [mnemonic, Instr.dest, Instr.sources, asmBinary, asmUnary]

/-- Settles O8: the text is a line of the command's mnemonic and addresses, and each address reads back. -/
theorem assembleOfText : Obligations.AssembleOfText := by
  intro i
  have haddr : ∀ l ∈ (i.dest :: i.sources).map addrText, IsNumeral l :=
    List.forall_mem_map.2 fun b _ => isNumeral_addrText b
  rw [text_eq_lineText, List.map_cons, assembleLine_lineText (isPlainWord_mnemonic i) haddr, ← List.map_cons,
    asmCommand_mnemonic]
  rfl

/-- Twenty decimal digits hold every 64-bit word. -/
theorem asmCommand_word (w : Word) :
    asmCommand ['.', 'w', 'o', 'r', 'd'] [decimal 20 w.toNat []] = .ok w := by
  have hupper : upper ['.', 'w', 'o', 'r', 'd'] = ['.', 'W', 'O', 'R', 'D'] := by decide
  have hw := w.isLt
  rw [asmCommand, hupper]
  simp [asmWord, parseBelow_decimal (n := 19) (by omega) hw]

/-- Settles O9: the text is a line of `.word` and one number, which reads back. -/
theorem assembleRawWord : Obligations.AssembleRawWord := by
  intro w
  have hline : wordText w = lineText ['.', 'w', 'o', 'r', 'd'] [decimal 20 w.toNat []] := by
    simp [wordText, lineText]
  have hplain : IsPlainWord ['.', 'w', 'o', 'r', 'd'] := by
    simp [IsPlainWord, isBlank]
  have hnum : ∀ l ∈ [decimal 20 w.toNat []], IsNumeral l := by
    simpa using isNumeral_decimal 19 w.toNat
  rw [hline, assembleLine_lineText hplain hnum, asmCommand_word]
  rfl

end Sys2Proof.Machine.Asm
end

section
/-! PROOF. `ADD` and `SUB`, and what every command writes where its sources are reduced and where one is not
(40_addsub.md R80 to R87). -/

namespace Sys2Proof.Machine

/-! ### The chains as arithmetic modulo 2^(64·n) (40_addsub.md R82, R86) -/

theorem val_addChain {xs ys : List Word} (h : xs.length = ys.length) :
    val (addChain xs ys 0).1 = (val xs + val ys) % 2 ^ (64 * xs.length) := by
  have hsum := addChain_spec h 0
  have hlt := val_lt (addChain xs ys 0).1
  rw [addChain_length h] at hlt
  rw [Nat.add_zero] at hsum
  rw [← hsum, Nat.add_mul_mod_self_left, Nat.mod_eq_of_lt hlt]

theorem val_subChain {xs ys : List Word} (h : xs.length = ys.length) :
    val (subChain xs ys 0).1 = (val xs + (2 ^ (64 * xs.length) - val ys)) % 2 ^ (64 * xs.length) := by
  obtain ⟨hdiff, -⟩ := subChain_spec h (Nat.zero_le 1)
  have hys := val_lt ys
  have hlt := val_lt (subChain xs ys 0).1
  rw [← h] at hys
  rw [subChain_length h] at hlt
  rw [Nat.add_zero] at hdiff
  rw [← Nat.mod_eq_of_lt hlt]
  refine Nat.ModEq.add_right_cancel' (val ys) ?_
  rw [Nat.ModEq, hdiff, Nat.add_mul_mod_self_left, Nat.add_assoc, Nat.sub_add_cancel hys.le, Nat.add_mod_right]

/-- A sum that fits six words has no carry out. -/
theorem addChain_words {a b : Nat} (h : a + b < 2 ^ (64 * 6)) :
    addChain (words 6 a) (words 6 b) 0 = (words 6 (a + b), 0) := by
  have hlen : (words 6 a).length = (words 6 b).length := by simp
  have hval := val_addChain hlen
  have hsum := addChain_spec hlen 0
  rw [words_length, val_words_of_lt (by omega), val_words_of_lt (by omega)] at hval hsum
  rw [Nat.mod_eq_of_lt h] at hval
  have hwords := words_val (addChain (words 6 a) (words 6 b) 0).1
  rw [addChain_length hlen, words_length, hval] at hwords
  have hcarry : 2 ^ (64 * 6) * (addChain (words 6 a) (words 6 b) 0).2 = 0 := by omega
  exact Prod.ext hwords.symm ((Nat.mul_eq_zero.1 hcarry).resolve_left (Nat.two_pow_pos _).ne')

/-- Settles O40: the sum fits six words, and the trial subtraction is a borrow chain on the words of a + b and N. -/
theorem addBorrowSelects : Obligations.AddBorrowSelects := by
  intro x y hx hy
  have hn := n_lt
  have hsum : x + y < 2 ^ (64 * 6) := by omega
  obtain ⟨-, hborrow, -⟩ := subChain_words hsum (show Rom.n < 2 ^ (64 * 6) by omega)
  rw [addChain_words hsum]
  exact ⟨rfl, val_words_of_lt hsum, hborrow⟩

/-- Settles O39: with no borrow both fix-ups are by 0, and after one subtracting CORR is adding 2^384 − CORR = N. -/
theorem subFixupsAgree : Obligations.SubFixupsAgree := by
  intro x y _ _
  have hcorr := n_add_corr
  have hlen := subChain_length (xs := words 6 x) (ys := words 6 y) (by simp) 0
  obtain ⟨-, hborrow⟩ := subChain_spec (xs := words 6 x) (ys := words 6 y) (by simp) (Nat.zero_le 1)
  rw [words_length] at hlen
  simp only [subDatapath, subDatapathByCorr]
  generalize subChain (words 6 x) (words 6 y) 0 = diff at *
  rw [val_addChain (by simp [hlen]), val_subChain (by simp [hlen]), map_and_maskOf _ hborrow,
    map_and_maskOf _ hborrow, val_words_n, val_words_corr, hlen, ← hcorr]
  obtain h0 | h1 : diff.2 = 0 ∨ diff.2 = 1 := by omega
  · simp [h0]
  · simp [h1]

/-! ### Every command, by whether its sources are reduced (40_addsub.md R80, R83, R87) -/

theorem all_reduced_eq_true {xs : List Nat} (h : ∀ x ∈ xs, x < Rom.n) : xs.all reduced = true := by
  simpa [reduced] using h

theorem all_reduced_eq_false {xs : List Nat} (h : ∃ x ∈ xs, Rom.n ≤ x) : xs.all reduced = false := by
  simpa [reduced] using h

theorem montMul_lt (tier : MulTier) {a b : Nat} (ha : a < Rom.n) (hb : b < Rom.n) : montMul tier a b < Rom.n := by
  rw [montMul_eq tier ha hb]
  exact Nat.mod_lt _ (Nat.zero_lt_of_lt ha)

/-- Every operation is closed on the reduced elements. -/
theorem opValue_lt (tier : MulTier) (i : Instr) {xs : List Nat} (h : ∀ x ∈ xs, x < Rom.n) :
    opValue tier i xs < Rom.n := by
  have h0 := getD_zero_lt_n h 0
  have h1 := getD_zero_lt_n h 1
  have hpos := Nat.zero_lt_of_lt h0
  cases i with
  | add _ _ _ => exact (addDatapath_eq h0 h1).trans_lt (Nat.mod_lt _ hpos)
  | sub _ _ _ => exact (subDatapath_eq h0 h1).trans_lt (Nat.mod_lt _ hpos)
  | mmul _ _ _ => exact montMul_lt tier h0 h1
  | tomont _ _ => exact montMul_lt tier h0 r2_lt
  | tonorm _ _ => exact montMul_lt tier h0 one_lt

/-- A legal command on reduced sources writes its operation's value and changes nothing else. -/
theorem exec_of_reduced {i : Instr} {s : State} (hw : i.wellFormed s.cfg.omemWords = true) {xs : List Nat}
    (hx : List.Forall₂ s.Holds i.sources xs) (hred : ∀ x ∈ xs, x < Rom.n) :
    ∃ t, exec i s = .next t ∧ t.Holds i.dest (opValue s.cfg.mulTier i xs) ∧ SameOutside i.dest s t ∧
      SameControl s t ∧ t.draws = s.draws := by
  have hn := n_lt
  have hr := opValue_lt s.cfg.mulTier i hred
  have hexec := exec_of_holds hw hx
  rw [all_reduced_eq_true hred] at hexec
  exact ⟨_, hexec, (s.writeResult_holds _ (by omega)).1, s.writeResult_sameOutside _ _ _,
    s.writeResult_sameControl _ _ _, s.writeResult_draws _ _ _⟩

/-- A free value is an element, whatever the operation would have given (00_scope.md R16). -/
theorem State.writeResult_false_holds (s : State) (d : BufAddr) (r : Nat) :
    (s.writeResult d false r).Holds d s.drawValue :=
  s.afterDraw.memWrite_holds d (Config.draw384 s.draws).isLt

/-- Settles O33: the write phase takes the draw where a source is not reduced. -/
theorem unreducedSourceWritesFreeValue : Obligations.UnreducedSourceWritesFreeValue := by
  intro i s xs hw hx hunred
  have hexec := exec_of_holds hw hx
  rw [all_reduced_eq_false hunred] at hexec
  exact ⟨_, hexec, s.writeResult_false_holds _ _, s.writeResult_sameOutside _ _ _,
    s.writeResult_sameControl _ _ _, s.writeResult_draws _ _ _⟩

/-- Settles O34: the command writes its operation's value, which is reduced. -/
theorem reducedSourcesGiveReducedResult : Obligations.ReducedSourcesGiveReducedResult := by
  intro i s xs hw hx hred
  obtain ⟨t, hexec, hholds, -, -, hdraws⟩ := exec_of_reduced hw hx hred
  exact ⟨t, _, hexec, opValue_lt _ i hred, hholds, hdraws⟩

/-! ### `ADD` and `SUB` (40_addsub.md R81, R85) -/

/-- Settles O37: the carry chain and the conditional subtraction give the sum modulo N. -/
theorem addWritesModularSum : Obligations.AddWritesModularSum := by
  intro d a b s x y hw ha hb hx hy
  have hexec := exec_of_reduced hw (xs := [x, y]) (.cons ha (.cons hb .nil)) (by simp [hx, hy])
  have hsum : opValue s.cfg.mulTier (.add d a b) [x, y] = (x + y) % Rom.n := addDatapath_eq hx hy
  rwa [hsum] at hexec

/-- R87's two cases: `SUB` borrows exactly when the minuend is the smaller. -/
theorem subDatapath_eq_ite {a b : Nat} (ha : a < Rom.n) (hb : b < Rom.n) :
    subDatapath a b = if b ≤ a then a - b else a + Rom.n - b := by
  rw [subDatapath_eq ha hb]
  split
  next h => rw [Nat.sub_add_comm h, Nat.add_mod_right, Nat.mod_eq_of_lt (by omega)]
  next h => rw [Nat.mod_eq_of_lt (by omega)]

/-- Settles O38: the borrow chain and its fix-up give the difference, and N more after a borrow. -/
theorem subWritesModularDifference : Obligations.SubWritesModularDifference := by
  intro d a b s x y hw ha hb hx hy
  have hexec := exec_of_reduced hw (xs := [x, y]) (.cons ha (.cons hb .nil)) (by simp [hx, hy])
  have hdiff : opValue s.cfg.mulTier (.sub d a b) [x, y] = if y ≤ x then x - y else x + Rom.n - y :=
    subDatapath_eq_ite hx hy
  rwa [hdiff] at hexec

end Sys2Proof.Machine
end

section
/-! PROOF. The rounds of `MMUL`, on words and on values (41_montmul.md R101 to R103). -/

namespace Sys2Proof.Machine

/-! ### Words of a number (00_scope.md R13) -/

theorem val_take_add_drop {ws : List Word} {i : Nat} (hi : i ≤ ws.length) :
    val (ws.take i) + 2 ^ (64 * i) * val (ws.drop i) = val ws := by
  conv_rhs => rw [← List.take_append_drop i ws]
  rw [val_append, List.length_take, Nat.min_eq_left hi]

theorem val_drop_eq_div (ws : List Word) (i : Nat) : val (ws.drop i) = val ws / 2 ^ (64 * i) := by
  induction i with
  | zero => simp
  | succ i ih => rw [← List.tail_drop, val_tail, ih, Nat.div_div_eq_div_mul, ← pow_add, Nat.mul_succ]

theorem getD_toNat_eq_drop (ws : List Word) (k : Nat) : (ws.getD k 0).toNat = val (ws.drop k) % 2 ^ 64 := by
  rw [← headD_toNat, List.headD_eq_head?_getD, List.head?_drop, List.getD_eq_getElem?_getD]

/-- The words at and above `k` of a number below 2^(64·k) are 0. -/
theorem getD_eq_zero_of_val_lt {ws : List Word} {j k : Nat} (h : val ws < 2 ^ (64 * j)) (hk : j ≤ k) :
    ws.getD k 0 = 0 := by
  apply BitVec.eq_of_toNat_eq
  have hlt : val ws < 2 ^ (64 * k) := h.trans_le (Nat.pow_le_pow_right (by decide) (by omega))
  rw [getD_toNat_eq_drop, val_drop_eq_div, Nat.div_eq_of_lt hlt]
  rfl

/-- The words below `j` of a multiple of 2^(64·j) are 0. -/
theorem getD_eq_zero_of_val_eq_mul {ws : List Word} {j k t : Nat} (h : val ws = 2 ^ (64 * j) * t) (hk : k < j) :
    ws.getD k 0 = 0 := by
  apply BitVec.eq_of_toNat_eq
  obtain ⟨d, rfl⟩ : ∃ d, j = k + 1 + d := ⟨j - (k + 1), by omega⟩
  have hsplit : 2 ^ (64 * (k + 1 + d)) * t = 2 ^ (64 * k) * (2 ^ 64 * (2 ^ (64 * d) * t)) := by ring
  rw [getD_toNat_eq_drop, val_drop_eq_div, h, hsplit, Nat.mul_div_cancel_left _ (Nat.two_pow_pos _),
    Nat.mul_mod_right]
  rfl

theorem take_succ_eq_append_getD {ws : List Word} {i : Nat} (hi : i < ws.length) :
    ws.take (i + 1) = ws.take i ++ [ws.getD i 0] := by
  rw [List.take_succ_eq_append_getElem hi, List.getD_eq_getElem _ _ hi]

theorem val_take_succ {ws : List Word} {i : Nat} (hi : i < ws.length) :
    val (ws.take (i + 1)) = val (ws.take i) + 2 ^ (64 * i) * (ws.getD i 0).toNat := by
  rw [take_succ_eq_append_getD hi, val_append, List.length_take, Nat.min_eq_left hi.le]
  simp [val]

/-- Digits below 2^64 make a number below 2^(64·k). -/
theorem sum_digits_lt {m : Nat → Nat} (hm : ∀ i, m i < 2 ^ 64) (k : Nat) :
    ∑ i ∈ Finset.range k, m i * 2 ^ (64 * i) < 2 ^ (64 * k) := by
  induction k with
  | zero => simp
  | succ k ih =>
    have htop : m k * 2 ^ (64 * k) ≤ (2 ^ 64 - 1) * 2 ^ (64 * k) :=
      Nat.mul_le_mul_right _ (Nat.le_sub_one_of_lt (hm k))
    rw [Finset.sum_range_succ, Nat.mul_succ, pow_add]
    omega

theorem val_words_of_lt_n {a : Nat} (ha : a < Rom.n) : val (words 6 a) = a := by
  have := n_lt
  exact val_words_of_lt (by omega)

/-! ### One round (41_montmul.md R101, R102 (b)) -/

/-- A row at an offset adds exactly, where the sum fits the row and its overflow word. -/
theorem val_rowAt_drop {i : Nat} {acc xs : List Word} {y : Word} (hi : i + xs.length < acc.length)
    (h : val (acc.drop i) + val xs * y.toNat < 2 ^ (64 * (xs.length + 1))) :
    val ((rowAt i acc xs y).drop i) = val (acc.drop i) + val xs * y.toNat := by
  rw [rowAt_drop (by omega), val_mulAddRow (by rw [List.length_drop]; omega) h, Nat.add_zero]

/-- 2^64·2N fits a row and its overflow word (10_state.md R35). -/
theorem round_fits_window : 2 ^ 64 * (2 * Rom.n) < 2 ^ 448 := by decide +kernel

section
variable {a i : Nat} {acc : List Word} (ha : a < Rom.n) (hi : i + 7 ≤ acc.length) (ht : val (acc.drop i) < 2 * Rom.n)
  (b : Word)
include ha hi ht

theorem val_firstRow_drop :
    val ((rowAt i acc (words 6 a) b).drop i) = val (acc.drop i) + a * b.toNat := by
  have hsum := valueRound_sum_lt ha ht b
  have hfit := round_fits_window
  have hrow := val_rowAt_drop (i := i) (acc := acc) (xs := words 6 a) (y := b)
  rw [words_length, val_words_of_lt_n ha] at hrow
  exact hrow (by omega) (by omega)

/-- The quotient digit of the words is that of their value (41_montmul.md R103). -/
theorem quotientDigit_firstRow :
    (quotientDigit i (rowAt i acc (words 6 a) b)).toNat = valueDigit (val (acc.drop i) + a * b.toNat) := by
  rw [quotientDigit, BitVec.toNat_mul, getD_toNat_eq_drop, val_firstRow_drop ha hi ht, valueDigit]

theorem val_ciosRound_drop :
    val ((ciosRound (words 6 a) i acc b).drop i) =
      val (acc.drop i) + a * b.toNat + valueDigit (val (acc.drop i) + a * b.toNat) * Rom.n := by
  have hsum := valueRound_sum_lt ha ht b
  have hfit := round_fits_window
  have hrow := val_rowAt_drop (i := i) (acc := rowAt i acc (words 6 a) b) (xs := words 6 Rom.n)
    (y := quotientDigit i (rowAt i acc (words 6 a) b))
  rw [words_length, rowAt_length, val_words_n, val_firstRow_drop ha hi ht, quotientDigit_firstRow ha hi ht,
    Nat.mul_comm Rom.n] at hrow
  exact hrow (by omega) (by omega)

end

theorem ciosRound_take {i : Nat} {acc : List Word} (hi : i ≤ acc.length) (la : List Word) (b : Word) :
    (ciosRound la i acc b).take i = acc.take i := by
  simp only [ciosRound]
  rw [rowAt_take (by simpa using hi), rowAt_take hi]

/-! ### The rounds so far (41_montmul.md R102 (d)) -/

@[simp] theorem ciosRounds_length (la : List Word) (i : Nat) (acc bs : List Word) :
    (ciosRounds la i acc bs).length = acc.length := by
  induction bs generalizing i acc with
  | nil => rfl
  | cons b bs ih => rw [ciosRounds, ih, ciosRound_length]

@[simp] theorem ciosAcc_length (la bs : List Word) : (ciosAcc la bs).length = 12 := by simp [ciosAcc]

theorem ciosAcc_append (la bs : List Word) (b : Word) :
    ciosAcc la (bs ++ [b]) = ciosRound la bs.length (ciosAcc la bs) b := by
  rw [ciosAcc, ciosRounds_append, Nat.zero_add, ciosAcc]

theorem valueRounds_lt_two_n {a : Nat} (ha : a < Rom.n) (bs : List Word) : valueRounds a bs < 2 * Rom.n :=
  valueRounds_lt ha (by omega) bs

/-- T is the accumulator's words from the offset of the next round up. -/
theorem val_ciosAcc_drop {a : Nat} (ha : a < Rom.n) {bs : List Word} (hbs : bs.length ≤ 6) :
    val ((ciosAcc (words 6 a) bs).drop bs.length) = valueRounds a bs := by
  have hzero := val_replicate_zero 12
  have hla := val_words_of_lt_n ha
  have hdrop := ciosRounds_drop (words 6 a) bs (i := 0) (acc := List.replicate 12 0) (by simp; omega)
  obtain ⟨-, hval⟩ := windowRounds_spec (words_length 6 a) (hla.symm ▸ ha) bs (w := List.replicate 12 0)
    (by simp; omega) (by omega)
  rw [Nat.zero_add, List.drop_zero] at hdrop
  rw [hla, hzero] at hval
  rw [ciosAcc, hdrop, hval, valueRounds]

/-! ### Round k, on the accumulator of the k rounds before it (41_montmul.md R102) -/

/-- The window of round k and its overflow word lie in the accumulator. -/
theorem length_add_seven_le_ciosAcc (la : List Word) {bs : List Word} (hbs : bs.length < 6) :
    bs.length + 7 ≤ (ciosAcc la bs).length := by
  rw [ciosAcc_length]
  omega

section
variable {a : Nat} {bs : List Word} (ha : a < Rom.n) (hbs : bs.length < 6) (b : Word)
include ha hbs

theorem ciosAcc_window_lt : val ((ciosAcc (words 6 a) bs).drop bs.length) < 2 * Rom.n := by
  rw [val_ciosAcc_drop ha hbs.le]
  exact valueRounds_lt_two_n ha bs

theorem val_ciosAcc_firstRow :
    val ((rowAt bs.length (ciosAcc (words 6 a) bs) (words 6 a) b).drop bs.length) =
      val ((ciosAcc (words 6 a) bs).drop bs.length) + a * b.toNat :=
  val_firstRow_drop ha (length_add_seven_le_ciosAcc _ hbs) (ciosAcc_window_lt ha hbs) b

theorem quotientDigit_ciosAcc :
    (quotientDigit bs.length (rowAt bs.length (ciosAcc (words 6 a) bs) (words 6 a) b)).toNat =
      valueDigit (valueRounds a bs + a * b.toNat) := by
  rw [quotientDigit_firstRow ha (length_add_seven_le_ciosAcc _ hbs) (ciosAcc_window_lt ha hbs),
    val_ciosAcc_drop ha hbs.le]

theorem val_ciosAcc_secondRow :
    val ((ciosAcc (words 6 a) (bs ++ [b])).drop bs.length) =
      val ((rowAt bs.length (ciosAcc (words 6 a) bs) (words 6 a) b).drop bs.length) +
        (quotientDigit bs.length (rowAt bs.length (ciosAcc (words 6 a) bs) (words 6 a) b)).toNat * Rom.n := by
  rw [ciosAcc_append, val_ciosRound_drop ha (length_add_seven_le_ciosAcc _ hbs) (ciosAcc_window_lt ha hbs),
    val_ciosAcc_firstRow ha hbs, quotientDigit_ciosAcc ha hbs, val_ciosAcc_drop ha hbs.le]

/-- The quotient digit makes the number from word k up a multiple of 2^64. -/
theorem val_ciosAcc_append_drop :
    val ((ciosAcc (words 6 a) (bs ++ [b])).drop bs.length) = 2 ^ 64 * valueRounds a (bs ++ [b]) := by
  rw [val_ciosAcc_secondRow ha hbs, val_ciosAcc_firstRow ha hbs, quotientDigit_ciosAcc ha hbs,
    val_ciosAcc_drop ha hbs.le, valueRounds_append, valueRound_exact]

end

/-- After the rounds of `bs` the accumulator is T·2^(64·k), k the number of rounds: a round leaves the words below its
offset, which are 0, and makes the number above them 2^64·T. -/
theorem val_ciosAcc {a : Nat} (ha : a < Rom.n) {bs : List Word} (hbs : bs.length ≤ 6) :
    val (ciosAcc (words 6 a) bs) = 2 ^ (64 * bs.length) * valueRounds a bs := by
  induction bs using List.reverseRecOn with
  | nil => rw [ciosAcc, ciosRounds, val_replicate_zero]; rfl
  | append_singleton bs b ih =>
    rw [List.length_append, List.length_singleton] at hbs ⊢
    have hbefore := val_take_add_drop (ws := ciosAcc (words 6 a) bs) (i := bs.length) (by simp; omega)
    have hafter := val_take_add_drop (ws := ciosAcc (words 6 a) (bs ++ [b])) (i := bs.length) (by simp; omega)
    have hlow : val ((ciosAcc (words 6 a) bs).take bs.length) = 0 := by
      rw [val_ciosAcc_drop ha (by omega), ih (by omega)] at hbefore
      omega
    rw [← hafter, val_ciosAcc_append_drop ha hbs, ciosAcc_append, ciosRound_take (by simp; omega), hlow]
    ring

theorem val_ciosAcc_lt {a : Nat} (ha : a < Rom.n) {bs : List Word} (hbs : bs.length ≤ 6) :
    val (ciosAcc (words 6 a) bs) < 2 ^ (64 * (bs.length + 6)) := by
  have hlt := valueRounds_lt_two_n ha bs
  have hn := n_lt
  rw [val_ciosAcc ha hbs, Nat.mul_add, pow_add]
  exact Nat.mul_lt_mul_of_pos_left (by omega) (Nat.two_pow_pos _)

/-- Settles O44: before round i the accumulator is T·2^(64·i) with T < 2N, both rows of the round fit its window, and
after it the accumulator is the next T shifted one word further. -/
theorem ciosRoundInvariants : Obligations.CiosRoundInvariants := by
  intro x y i hx _ hi
  have hlen : ((words 6 y).take i).length = i := by simp; omega
  dsimp only
  rw [take_succ_eq_append_getD (by simpa using hi)]
  generalize (words 6 y).getD i 0 = b
  generalize (words 6 y).take i = bs at *
  subst hlen
  have hrow1 := val_ciosAcc_firstRow hx hi b
  have hrow2 := val_ciosAcc_secondRow hx hi b
  have hshift := val_ciosAcc_append_drop hx hi b
  have hafter := val_ciosAcc hx (bs := bs ++ [b]) (by simpa using hi)
  have hlt := valueRounds_lt_two_n hx (bs ++ [b])
  have hfit := round_fits_window
  rw [List.length_append, List.length_singleton] at hafter
  exact ⟨fun k hk => getD_eq_zero_of_val_lt (val_ciosAcc_lt hx hi.le) hk, hrow1, hrow2, by omega, by omega,
    fun k hk => getD_eq_zero_of_val_eq_mul hafter (Nat.lt_succ_of_le hk), by rw [hafter, Nat.mul_comm], hlt⟩

/-! ### The rounds on words and on values (41_montmul.md R103) -/

/-- U_i of 41_montmul.md R103. -/
def roundSum (a : Nat) (lb : List Word) (i : Nat) : Nat := valueRounds a (lb.take i) + a * (lb.getD i 0).toNat

/-- The quotient digits of the first `k` rounds as one number; M of 41_montmul.md R103 for k = 6. -/
def quotient (a : Nat) (lb : List Word) (k : Nat) : Nat :=
  ∑ i ∈ Finset.range k, valueDigit (roundSum a lb i) * 2 ^ (64 * i)

theorem quotient_lt (a : Nat) (lb : List Word) (k : Nat) : quotient a lb k < 2 ^ (64 * k) :=
  sum_digits_lt (fun i => valueDigit_lt (roundSum a lb i)) k

theorem valueRounds_take_succ (a : Nat) {lb : List Word} {i : Nat} (hi : i < lb.length) :
    2 ^ 64 * valueRounds a (lb.take (i + 1)) = roundSum a lb i + valueDigit (roundSum a lb i) * Rom.n := by
  rw [take_succ_eq_append_getD hi, valueRounds_append, valueRound_exact, roundSum]

/-- T·2^(64·k) = a·b + M·N, b and M being those of the first `k` rounds. -/
theorem valueRounds_take_eq (a : Nat) {lb : List Word} {k : Nat} (hk : k ≤ lb.length) :
    2 ^ (64 * k) * valueRounds a (lb.take k) = a * val (lb.take k) + quotient a lb k * Rom.n := by
  induction k with
  | zero => simp [valueRounds, val, quotient]
  | succ k ih =>
    have hprev := ih (by omega)
    have hround := valueRounds_take_succ a (show k < lb.length by omega)
    have hsum : roundSum a lb k = valueRounds a (lb.take k) + a * (lb.getD k 0).toNat := rfl
    have hquot : quotient a lb (k + 1) = quotient a lb k + valueDigit (roundSum a lb k) * 2 ^ (64 * k) :=
      Finset.sum_range_succ _ _
    rw [hquot, val_take_succ (by omega), Nat.mul_succ, pow_add]
    linear_combination hprev + 2 ^ (64 * k) * (hround + hsum)

theorem quotientDigit_eq_valueDigit_roundSum {a i : Nat} (ha : a < Rom.n) {lb : List Word} (hi : i < lb.length)
    (hi6 : i < 6) :
    (quotientDigit i (rowAt i (ciosAcc (words 6 a) (lb.take i)) (words 6 a) (lb.getD i 0))).toNat =
      valueDigit (roundSum a lb i) := by
  have hlen : (lb.take i).length = i := List.length_take_of_le hi.le
  have hdigit := quotientDigit_ciosAcc ha (bs := lb.take i) (by omega) (lb.getD i 0)
  rwa [hlen] at hdigit

/-- Settles O43: a round's quotient digit on words is that of the value of its window, and the exact divisions of the
six rounds add up to T·2^384 = a·b + M·N. -/
theorem ciosAgreesWithValueForm : Obligations.CiosAgreesWithValueForm := by
  intro x y hx hy
  have hlen : ∀ {i}, i < 6 → i < (words 6 y).length := fun hi => by rwa [words_length]
  have hdrop := val_ciosAcc_drop hx (bs := words 6 y) (by simp)
  have hsum := valueRounds_take_eq x (lb := words 6 y) (k := 6) (by simp)
  rw [words_length] at hdrop
  rw [List.take_of_length_le (by simp), val_words_of_lt_n hy] at hsum
  exact ⟨hdrop, fun i hi => ⟨quotientDigit_eq_valueDigit_roundSum hx (hlen hi) hi,
    valueRounds_take_succ x (hlen hi)⟩, hsum, quotient_lt x (words 6 y) 6⟩

end Sys2Proof.Machine
end

section
/-! PROOF. `MMUL` in every tier (41_montmul.md R100, R105, R106, R110). -/

namespace Sys2Proof.Machine

/-- Settles O15, by everything a step can have done. -/
theorem stepKeepsBuild : Obligations.StepKeepsBuild := fun _ _ hstep => step_cfg hstep

/-- R⁻¹ undoes R modulo N (10_state.md R35 (f)). -/
theorem mul_rInv_mul_r_mod (z : Nat) : z * Rom.rInv % Rom.n * 2 ^ 384 % Rom.n = z % Rom.n := by
  rw [Nat.mod_mul_mod, Nat.mul_assoc, Nat.mul_mod, rInv_mul_r, Nat.mul_one, Nat.mod_mod]

theorem montMul_comm (tier : MulTier) {a b : Nat} (ha : a < Rom.n) (hb : b < Rom.n) :
    montMul tier a b = montMul tier b a := by
  rw [montMul_eq tier ha hb, montMul_eq tier hb ha, Nat.mul_comm a b]

/-- Settles O41: the value written is a·b·R⁻¹ mod N in the build's tier. -/
theorem mmulWritesMontgomeryProduct : Obligations.MmulWritesMontgomeryProduct := by
  intro d a b s x y hw ha hb hx hy
  obtain ⟨t, hexec, hframe⟩ := exec_of_reduced hw (xs := [x, y]) (.cons ha (.cons hb .nil)) (by simp [hx, hy])
  have hmod : montMul s.cfg.mulTier x y * 2 ^ 384 % Rom.n = x * y % Rom.n := by
    rw [montMul_eq _ hx hy, mul_rInv_mul_r_mod]
  exact ⟨t, _, hexec, montMul_lt s.cfg.mulTier hx hy, hmod, hframe⟩

theorem wellFormed_mmul_swap {n : Nat} {d a b : BufAddr} (h : (Instr.mmul d a b).wellFormed n = true) :
    (Instr.mmul d b a).wellFormed n = true := by
  simp only [Instr.wellFormed, Instr.dest, Instr.sources, List.all_cons, List.all_nil, Bool.and_true,
    Bool.and_eq_true] at h ⊢
  exact ⟨h.1, h.2.symm⟩

/-- Settles O42: both orders write the same value at the same destination. -/
theorem mmulCommutes : Obligations.MmulCommutes := by
  intro d a b s x y hw ha hb hx hy
  have hall : [x, y].all reduced = [y, x].all reduced := by simp [Bool.and_comm]
  have hval : opValue s.cfg.mulTier (.mmul d a b) [x, y] = opValue s.cfg.mulTier (.mmul d b a) [y, x] :=
    montMul_comm _ hx hy
  have hexec := exec_of_holds hw (xs := [x, y]) (.cons ha (.cons hb .nil))
  rw [hall, hval] at hexec
  exact ⟨_, hexec, exec_of_holds (wellFormed_mmul_swap hw) (.cons hb (.cons ha .nil))⟩

/-- Settles O45: every tier gives a·b·R⁻¹ mod N, the reference tier among them, and where an operand is not reduced
the write phase takes the draw. -/
theorem tiersBitIdentical : Obligations.TiersBitIdentical := by
  refine ⟨fun tier x y hx hy => ⟨montMul_tier_irrel tier .reference hx hy, montMul_eq tier hx hy⟩, ?_⟩
  intro d a b s x y hw ha hb
  have hsrc : List.Forall₂ s.Holds (Instr.mmul d a b).sources [x, y] := .cons ha (.cons hb .nil)
  by_cases hred : x < Rom.n ∧ y < Rom.n
  · obtain ⟨hx, hy⟩ := hred
    obtain ⟨t, hexec, hholds, -⟩ := exec_of_reduced hw hsrc (by simp [hx, hy])
    have href : opValue s.cfg.mulTier (.mmul d a b) [x, y] = ciosReference x y :=
      montMul_tier_irrel _ .reference hx hy
    rw [href] at hholds
    exact ⟨t, hexec, fun _ _ => hholds, fun hge => by omega⟩
  · obtain ⟨t, hexec, hholds, -⟩ := unreducedSourceWritesFreeValue _ s [x, y] hw hsrc (by simp; omega)
    exact ⟨t, hexec, fun hx hy => absurd ⟨hx, hy⟩ hred, fun _ => hholds⟩

end Sys2Proof.Machine
end

section
/-! PROOF. `TOMONT` and `TONORM`: into the Montgomery domain and back (42_conversion.md R120 to R124). -/

namespace Sys2Proof.Machine

/-! ### R and R⁻¹ modulo N (10_state.md R26, R35 (f)) -/

theorem r2_eq : Rom.r2 = 2 ^ 384 * 2 ^ 384 % Rom.n := by decide +kernel

/-- R⁻¹ undoes R modulo N: `mul_rInv_mul_r_mod` in the other order. -/
theorem mul_r_mul_rInv_modEq (z : Nat) : z * 2 ^ 384 * Rom.rInv ≡ z [MOD Rom.n] := by
  rw [Nat.ModEq, Nat.mul_right_comm, ← Nat.mod_mul_mod, mul_rInv_mul_r_mod]

theorem mul_r2_mul_rInv_mod (x : Nat) : x * Rom.r2 * Rom.rInv % Rom.n = x * 2 ^ 384 % Rom.n := by
  have hr2 : x * Rom.r2 ≡ x * 2 ^ 384 * 2 ^ 384 [MOD Rom.n] := by
    rw [r2_eq, Nat.mul_assoc]
    exact (Nat.mod_modEq _ _).mul_left x
  exact (hr2.mul_right Rom.rInv).trans (mul_r_mul_rInv_modEq _)

/-- z from mont(z) = z·R mod N (42_conversion.md R123). -/
theorem mont_mul_rInv_mod (z : Nat) : z * 2 ^ 384 % Rom.n * Rom.rInv % Rom.n = z % Rom.n := by
  rw [Nat.mod_mul_mod, mul_r_mul_rInv_modEq]

/-- The Montgomery product of mont(x) and mont(y) is mont(x·y) (42_conversion.md R124). -/
theorem mont_mul_mont_mul_rInv_mod (x y : Nat) :
    x * 2 ^ 384 % Rom.n * (y * 2 ^ 384 % Rom.n) * Rom.rInv % Rom.n = x * y * 2 ^ 384 % Rom.n := by
  have hprod : x * 2 ^ 384 % Rom.n * (y * 2 ^ 384 % Rom.n) ≡ x * y * 2 ^ 384 * 2 ^ 384 [MOD Rom.n] := by
    rw [Nat.mul_assoc (x * y), Nat.mul_mul_mul_comm]
    exact (Nat.mod_modEq _ _).mul (Nat.mod_modEq _ _)
  exact (hprod.mul_right Rom.rInv).trans (mul_r_mul_rInv_modEq _)

/-! ### What the commands write -/

section
variable {d a : BufAddr} {s : State} {x : Nat} (ha : s.Holds a x) (hx : x < Rom.n)
include ha hx

theorem exec_tomont_of_reduced (hw : (Instr.tomont d a).wellFormed s.cfg.omemWords = true) :
    ∃ t, exec (.tomont d a) s = .next t ∧ t.Holds d (x * 2 ^ 384 % Rom.n) ∧ SameOutside d s t ∧ SameControl s t ∧
      t.draws = s.draws := by
  have hexec := exec_of_reduced hw (xs := [x]) (.cons ha .nil) (by simp [hx])
  have hval : opValue s.cfg.mulTier (.tomont d a) [x] = x * 2 ^ 384 % Rom.n :=
    (montMul_eq _ hx r2_lt).trans (mul_r2_mul_rInv_mod x)
  rwa [hval] at hexec

theorem exec_tonorm_of_reduced (hw : (Instr.tonorm d a).wellFormed s.cfg.omemWords = true) :
    ∃ t, exec (.tonorm d a) s = .next t ∧ t.Holds d (x * Rom.rInv % Rom.n) ∧ SameOutside d s t ∧ SameControl s t ∧
      t.draws = s.draws := by
  have hexec := exec_of_reduced hw (xs := [x]) (.cons ha .nil) (by simp [hx])
  have hval : opValue s.cfg.mulTier (.tonorm d a) [x] = x * Rom.rInv % Rom.n :=
    (montMul_eq _ hx one_lt).trans (by rw [Rom.one, Nat.mul_one])
  rwa [hval] at hexec

theorem exec_mmul_of_reduced {b : BufAddr} {y : Nat} (hb : s.Holds b y) (hy : y < Rom.n)
    (hw : (Instr.mmul d a b).wellFormed s.cfg.omemWords = true) :
    ∃ t, exec (.mmul d a b) s = .next t ∧ t.Holds d (x * y * Rom.rInv % Rom.n) ∧ SameOutside d s t ∧
      SameControl s t ∧ t.draws = s.draws := by
  have hexec := exec_of_reduced hw (xs := [x, y]) (.cons ha (.cons hb .nil)) (by simp [hx, hy])
  have hval : opValue s.cfg.mulTier (.mmul d a b) [x, y] = x * y * Rom.rInv % Rom.n := montMul_eq _ hx hy
  rwa [hval] at hexec

end

/-- Settles O48: R2 is R·R mod N, so the product with it is a·R mod N. -/
theorem tomontWritesMontgomeryForm : Obligations.TomontWritesMontgomeryForm :=
  ⟨r2_eq, r2_lt, fun _ _ _ x hw ha hx => ⟨mul_r2_mul_rInv_mod x, exec_tomont_of_reduced ha hx hw⟩⟩

/-- Settles O49: the product with ONE is a·R⁻¹ mod N, and R⁻¹ takes z·R mod N back to z. -/
theorem tonormWritesNormalForm : Obligations.TonormWritesNormalForm := by
  refine ⟨rInv_mul_r, fun d a s x hw ha hx => ?_⟩
  obtain ⟨t, hexec, hholds, hframe⟩ := exec_tonorm_of_reduced ha hx hw
  refine ⟨t, hexec, hholds, ?_, hframe⟩
  intro z hz hxz
  rwa [hxz, mont_mul_rInv_mod, Nat.mod_eq_of_lt hz] at hholds

/-- Settles O50: each command leaves the sources of the later ones, the product of mont(a) and mont(b) is mont(a·b), and
TONORM undoes mont. -/
theorem domainRoundTripAndProduct : Obligations.DomainRoundTripAndProduct := by
  have hred : ∀ z, z % Rom.n < Rom.n := fun z => Nat.mod_lt z (Nat.zero_lt_of_lt one_lt)
  constructor
  · intro d e a s x hwd hwe ha hx
    obtain ⟨t, ht, hd, -, hcontrol, -⟩ := exec_tomont_of_reduced ha hx hwd
    rw [← hcontrol.cfg] at hwe
    obtain ⟨u, hu, he, -⟩ := exec_tonorm_of_reduced hd (hred _) hwe
    rw [mont_mul_rInv_mod, Nat.mod_eq_of_lt hx] at he
    exact ⟨t, u, ht, hu, he⟩
  · intro a b p q m r s x y hwp hwq hwm hwr hpb hqp ha hb hx hy
    obtain ⟨s1, h1, hp, hout1, hcontrol1, -⟩ := exec_tomont_of_reduced ha hx hwp
    rw [← hcontrol1.cfg] at hwq hwm hwr
    obtain ⟨s2, h2, hq, hout2, hcontrol2, -⟩ := exec_tomont_of_reduced (hb.of_sameOutside hout1 hpb) hy hwq
    rw [← hcontrol2.cfg] at hwm hwr
    obtain ⟨s3, h3, hm, -, hcontrol3, -⟩ :=
      exec_mmul_of_reduced (hp.of_sameOutside hout2 hqp) (hred _) hq (hred _) hwm
    rw [← hcontrol3.cfg] at hwr
    rw [mont_mul_mont_mul_rInv_mod] at hm
    obtain ⟨s4, h4, hr, -⟩ := exec_tonorm_of_reduced hm (hred _) hwr
    rw [mont_mul_rInv_mod] at hr
    exact ⟨s1, s2, s3, s4, h1, h2, h3, h4, hr⟩

end Sys2Proof.Machine
end

section
/-! PROOF. The illegal command, what STATUS certifies, where a command can stop, and that a result depends on the
sources alone (60_exceptions.md R143 to R145, R151, R153, R154; 41_montmul.md R106). -/

namespace Sys2Proof.Machine

/-! ### One illegal command (60_exceptions.md R143, R145) -/

/-- An illegal word is the exception with its own check, whether it does not decode or decodes to a command that is
out of range. -/
theorem perform_issue_of_check_ne_zero {s : State} {w : Word} (h : check s.cfg.omemWords w ≠ 0) :
    perform (.issue w) s = .next (s.raiseCmdError (check s.cfg.omemWords w) w) := by
  cases hd : decode w with
  | error e => simp [perform, hostIssue, hd]
  | ok i =>
    have hcheck := check_of_decode s.cfg.omemWords hd
    cases hi : i.wellFormed s.cfg.omemWords with
    | true => exact absurd (by simp [hcheck, hi]) h
    | false => simp [perform_issue_of_decode hd, exec_eq, hcheck, hi, encode_of_decode hd]

/-- Settles O23: the step takes the exception, which touches no field but STATUS and ERRCMD. -/
theorem illegalCommandException : Obligations.IllegalCommandException := by
  intro s w rest h0 hs hw
  have hrec := recordsIllegal_raiseCmdError hw rest
  refine ⟨_, (step_cons h0 hs).trans (perform_issue_of_check_ne_zero (s := { s with host := rest }) hw),
    hrec.statusReg, hrec.errcmd, ?_⟩
  simp

/-- Settles O24, the case of O23 in which STATUS is not 0. -/
theorem illegalWhileStatusSet : Obligations.IllegalWhileStatusSet := by
  intro s w rest h0 hs hw hne
  obtain ⟨t, hstep, hstatus, herr, -⟩ := illegalCommandException s w rest h0 hs hw
  exact ⟨t, hstep, hstatus, herr.trans (if_neg hne)⟩

/-! ### STATUS after a sequence (60_exceptions.md R144) -/

/-- STATUS is 0 after a step other than Reset() exactly when it was 0 before and the step issued no illegal word. -/
theorem step_statusReg_eq_zero_iff {s t : State} {op : HostOp} {rest : List HostOp} (h : step s = .next t)
    (hs : s.host = op :: rest) (hreset : op ≠ .reset) :
    t.statusReg = 0 ↔ s.statusReg = 0 ∧ ∀ w, op = .issue w → check s.cfg.omemWords w = 0 := by
  obtain ⟨r, hr⟩ | ⟨w, r, hw, hrec⟩ | ⟨hlegal, hst, -⟩ := step_registers h
  · exact absurd (List.cons.inj (hs.symm.trans hr)).1 hreset
  · obtain ⟨rfl, -⟩ := List.cons.inj (hs.symm.trans hw)
    simp [hrec.statusReg, BitVec.or_eq_zero_iff]
  · rw [hst, and_iff_left]
    rintro w rfl
    exact hlegal w rest hs

/-- The same of a run without a Reset(), by induction on its operations. -/
theorem run_statusReg_eq_zero_iff {ops rest : List HostOp} {s t : State} (hs : s.host = ops ++ rest)
    (hreset : .reset ∉ ops) (hrun : Sys2Proof.core.run ops.length s = .next t) :
    t.statusReg = 0 ↔ s.statusReg = 0 ∧ ∀ w, .issue w ∈ ops → check s.cfg.omemWords w = 0 := by
  induction ops generalizing s with
  | nil => cases hrun; simp
  | cons op ops ih =>
    obtain ⟨a, hstep, hrun⟩ := run_succ_eq_next hrun
    rw [ih (step_host hstep hs) (List.not_mem_of_not_mem_cons hreset) hrun, step_cfg hstep,
      step_statusReg_eq_zero_iff hstep hs (List.ne_of_not_mem_cons hreset).symm, and_assoc]
    simp only [List.mem_cons, or_imp, forall_and, eq_comm]

/-- Settles O28, the case of a run from STATUS 0. -/
theorem statusCertifiesSequence : Obligations.StatusCertifiesSequence := by
  intro ops rest s t hzero hs hreset hrun
  rw [run_statusReg_eq_zero_iff hs hreset hrun, and_iff_right hzero]

/-! ### Where a command or a step stops (60_exceptions.md R151, R153, R154) -/

/-- Latching faults only by a word of one of the buffers that holds no value. -/
theorem State.latchAll_error {s : State} {bs : List BufAddr} {f : Fault} (h : s.latchAll bs = .error f) :
    ∃ k ∈ bs.flatMap bufWords, f = .uninitRead k ∧ s.omem.read k = none := by
  induction bs with
  | nil => cases h
  | cons b bs ih =>
    rw [State.latchAll] at h
    rw [List.flatMap_cons]
    cases hb : s.latch b with
    | error g =>
      rw [hb] at h
      cases h
      obtain ⟨j, hj, hf, hnone, -⟩ := (s.latch_error_iff b f).1 hb
      exact ⟨_, List.mem_append_left _ (List.mem_map_of_mem (List.mem_range.2 hj)), hf, hnone⟩
    | ok x =>
      cases hbs : s.latchAll bs with
      | ok xs => simp [hb, hbs, Except.map] at h
      | error g =>
        obtain rfl : g = f := by simpa [hb, hbs, Except.map] using h
        obtain ⟨k, hk, hf, hnone⟩ := ih hbs
        exact ⟨k, List.mem_append_right _ hk, hf, hnone⟩

/-- Settles O31: of what a command may answer, only the fault of its latches is no next state. -/
theorem commandFaultsOnlyUninit : Obligations.CommandFaultsOnlyUninit := by
  intro i s
  obtain ⟨-, he⟩ | ⟨hw, g, hlatch, he⟩ | ⟨-, xs, -, he⟩ := exec_cases i s
  · simp [he]
  · refine ⟨by simp [he], fun f hf => ?_⟩
    cases he.symm.trans hf
    exact ⟨hw, State.latchAll_error hlatch⟩
  · simp [he]

/-- Settles O13: with an empty host list a step takes the idle branch. -/
theorem idleHoldsState : Obligations.IdleHoldsState := by
  intro s h0 hs
  simp [step, h0, hs]

/-- Settles O14: a step asks for the shared-OMEM flag first. -/
theorem sharedOmemRefused : Obligations.SharedOmemRefused := fun _ hshared => if_pos hshared

/-! ### The result (60_exceptions.md R144; 41_montmul.md R106) -/

/-- Settles O35: both states write `opValue` of the same sources, which does not depend on the tier. -/
theorem resultDependsOnSourcesOnly : Obligations.ResultDependsOnSourcesOnly := by
  intro i s s' xs hw hw' hx hx' hred
  obtain ⟨t, hexec, hholds, -⟩ := exec_of_reduced hw hx hred
  obtain ⟨t', hexec', hholds', -⟩ := exec_of_reduced hw' hx' hred
  rw [opValue_tier_irrel s'.cfg.mulTier s.cfg.mulTier i hred] at hholds'
  exact ⟨t, t', _, hexec, hexec', hholds, hholds'⟩

end Sys2Proof.Machine
end

section
/-! PROOF. Reset, power-on, and that the values of a command's operands never stop it (70_reset_and_hazards.md R160,
R165; 00_scope.md R10). -/

namespace Sys2Proof.Machine

theorem opValue_lt_of_all_reduced (tier : MulTier) (i : Instr) {xs : List Nat} (h : xs.all reduced = true) :
    opValue tier i xs < 2 ^ 384 := by
  have hred : ∀ x ∈ xs, x < Rom.n := by simpa [reduced] using h
  have hr := opValue_lt tier i hred
  have hn := n_lt
  omega

/-- Whichever value a command writes, its result or a free value, the destination holds an element. -/
theorem State.exists_holds_writeResult (s : State) (tier : MulTier) (i : Instr) (xs : List Nat) :
    ∃ v, (s.writeResult i.dest (xs.all reduced) (opValue tier i xs)).Holds i.dest v := by
  cases h : xs.all reduced with
  | true => exact ⟨_, (s.writeResult_holds _ (opValue_lt_of_all_reduced tier i h)).1⟩
  | false => exact ⟨_, s.writeResult_false_holds _ _⟩

/-- Settles O29: with its buffers in range and its source words holding values, a command can only write a result. -/
theorem everyCommandCompletes : Obligations.EveryCommandCompletes := by
  intro i s hw hsources
  obtain ⟨hrange, -⟩ | ⟨-, f, hlatch, -⟩ | ⟨-, xs, -, hexec⟩ := exec_cases i s
  · exact absurd (hrange.symm.trans hw) (by decide)
  · obtain ⟨k, hk, -, hnone⟩ := State.latchAll_error hlatch
    exact absurd hnone (hsources k hk)
  · obtain ⟨v, hv⟩ := s.exists_holds_writeResult s.cfg.mulTier i xs
    exact ⟨_, v, hexec, hv, s.writeResult_sameOutside _ _ _, s.writeResult_sameControl _ _ _⟩

theorem perform_reset (s : State) : perform .reset s = .next s.coreReset := rfl

@[simp] theorem State.powerOn_statusReg (c : Config) : (State.powerOn c).statusReg = 0 := by
  simp [State.powerOn, State.statusReg]

@[simp] theorem Memory.read_nil (k : Nat) : Memory.read [] k = none := rfl

/-- Settles O20: Reset() and power-on leave the same empty OMEM and the same zero registers. -/
theorem resetSetsState : Obligations.ResetSetsState := by
  refine ⟨fun s rest h0 hs => ⟨_, (step_cons h0 hs).trans (perform_reset _), ?_⟩, fun c => ?_⟩
  · simp
  · exact ⟨State.powerOn_statusReg c, rfl, Memory.read_nil, rfl⟩

/-- Power-on of a build the spec allows meets the invariant (70_reset_and_hazards.md R160; 00_scope.md R10). -/
theorem State.powerOn_inv {c : Config} (h : c.wf = true) : (State.powerOn c).Inv :=
  ⟨h, State.powerOn_wf c, BitVec.zero_and, fun _ => rfl, fun hne => absurd rfl hne⟩

/-- Settles O52: the reset state is power-on of the default build, which is within the bounds. -/
theorem powerOnHasInvariant : Obligations.PowerOnHasInvariant :=
  ⟨State.powerOn_inv (by decide), fun _ => State.powerOn_inv⟩

end Sys2Proof.Machine
end
